-- ==== Sys2Proof/Word.lean ====
section
/-! DEFINITION. The plain types of the block's data (00_scope R5, R7): bytes, 32-bit words, 16-bit code
units, binary64 bit patterns, packets, bit strings, texts and keys. -/

namespace Sys2Proof

/-- A byte, 8 bits, an unsigned integer in `[0, 256)` (R7). -/
abbrev Byte := BitVec 8

/-- A word, 32 bits, unsigned: "the block has no signed quantity anywhere" (R7). -/
abbrev Word := BitVec 32

/-- One 16-bit code unit of a `text` field: it *is* the code point of one character (30_encoding R46). -/
abbrev CodeUnit := BitVec 16

/-- The bit pattern of an IEEE 754 binary64 number, the type of the rate `p` (30_encoding R45). -/
abbrev F64 := BitVec 64

/-- One physical slot: 31 bits, wide enough for `W = 31` (10_state R18). -/
abbrev Slot := BitVec 31

/-- A command or response packet, a finite byte sequence whose length the transport delivers (R40). -/
abbrev Packet := List Byte

/-- A key: a byte sequence, first byte first (R7, R43). -/
abbrev Key := List Byte

/-- A bit string, leftmost bit first (R7). -/
abbrev Bits := List Bool

/-- A text, a sequence of characters (R7). -/
abbrev Text := List CodeUnit

end Sys2Proof
end

