-- ==== Sys2Proof/Config.lean ====
section
/-! DEFINITION. What one implementation fixes and the spec leaves open (00_scope R6): the capacity of the
slot array, the rounding of the sizing formula next to an integer, and what a slot holds after a reset. All are
constants without a body, so that no proof can see a value of theirs and a theorem holds for every block the spec allows. -/

namespace Sys2Proof.Config

/-- The open capacity, counted from 0: one of the 138547332 values that R6 allows. DESIGN CHOICE (log 5):
kept uninterpreted, safe. -/
opaque capacityIndex : Fin 138547332

/-- `M_MAX`, the capacity of the slot array in slots, `1 ≤ M_MAX ≤ 138547332` (R6, D28; log 5). -/
def mMax : Nat := capacityIndex.val + 1

/-- Which slot count an implementation settles on for `(n, p)` when the sizing formula's real value lies
too close to an integer for the spec to fix the rounding (41_filter R70; log 6). A free value. -/
opaque slotCountChoice : Word → F64 → Nat

/-- The same for the hash count `k` (R70; log 6). A free value. -/
opaque hashCountChoice : Word → F64 → Nat

/-- What slot `j` holds after a reset of the block, until a command writes it: "every `SLOT[j]` unspecified"
(10_state R23). A free value for each slot and each reset, the resets counted by `State.resets` (log 4). -/
opaque resetSlot : Nat → Nat → Slot

end Sys2Proof.Config
end

