-- ==== Sys2Proof/Syntax.lean ====
section
/-! DEFINITION. The ten commands of the opcode map (30_encoding R49), one constructor a row, with the
operands of R48 as they stand after assembly (R53). -/

namespace Sys2Proof

/-- A command with its operands. "No operand is an address, none is relative to anything, and none is
extended or scaled" (R53). -/
inductive Instr where
  /-- `HASH seed, key` (40_hash R60). -/
  | hash (seed : Word) (key : Key)
  /-- `SBF_INIT n, p, w` (41_filter R75). -/
  | sbfInit (n : Word) (p : F64) (w : Byte)
  /-- `SBF_CFG m, k, w` (41_filter R76). -/
  | sbfCfg (m k : Word) (w : Byte)
  /-- `SBF_INSERT freq, key` (41_filter R77). -/
  | sbfInsert (freq : Word) (key : Key)
  /-- `SBF_SEAL` (41_filter R78). -/
  | sbfSeal
  /-- `SBF_QUERY key` (41_filter R79). -/
  | sbfQuery (key : Key)
  /-- `SBF_INFO` (41_filter R80). -/
  | sbfInfo
  /-- `SBF_EXPORT` (41_filter R81). -/
  | sbfExport
  /-- `B15_ENC bits` (42_codec R99). -/
  | b15Enc (bits : Bits)
  /-- `B15_DEC text` (42_codec R102). -/
  | b15Dec (text : Text)
deriving DecidableEq, Repr

end Sys2Proof
end

