-- ==== Sys2Proof/WellFormed.lean ====
section
/-! DEFINITION. When a command is expressible as a packet: the length limits that the field widths impose
(30_encoding R56). An operand *value* out of range for its meaning is not ill-formed (R51): it is answered by
the command's own rule. -/

namespace Sys2Proof

/-- The largest character count of a `text` field, `1 + (2^32 − 1)/15` (R56). -/
def maxTextLength : Nat := 286331154

/-- The length limits of R56; the commands without a variable-length operand are always expressible. -/
def Instr.wf : Instr → Bool
  | .hash _ key => decide (key.length < 2 ^ 32)
  | .sbfInit _ _ _ => true
  | .sbfCfg _ _ _ => true
  | .sbfInsert _ key => decide (key.length < 2 ^ 32)
  | .sbfSeal => true
  | .sbfQuery key => decide (key.length < 2 ^ 32)
  | .sbfInfo => true
  | .sbfExport => true
  | .b15Enc bits => decide (bits.length < 2 ^ 32)
  | .b15Dec text => decide (text.length ≤ maxTextLength)

end Sys2Proof
end

