-- ==== Sys2Proof/Decode.lean ====
section
/-! DEFINITION. The command packets of 30_encoding: the field types (R42 to R46), the opcode map and formats
(R48, R49), a decoder that is total on any bytes and rejects by name (R50, R51), the encoder written from the
same table, and the two maps between a packet and the numbered bits of the opcode table. -/

namespace Sys2Proof

/-! ## Numbers, bytes and bits -/

/-- The number whose bytes are `bs`, least significant first: `LE32` of R8 on any number of bytes (20_memory
R28, R29, R30). Each byte counts as an unsigned value. -/
def leNat : List Byte → Nat
  | [] => 0
  | b :: bs => b.toNat + 256 * leNat bs

/-- The low `n` bytes of `v`, least significant first (20_memory R30). -/
def leBytes : Nat → Nat → List Byte
  | 0, _ => []
  | n + 1, v => BitVec.ofNat 8 v :: leBytes n (v / 256)

/-- `bin_n(v)` of R8: the `n` bits of `v`, most significant first; bit `j` is `(v div 2^(n−1−j)) mod 2`. -/
def binN : Nat → Nat → Bits
  | 0, _ => []
  | n + 1, v => decide (v / 2 ^ n % 2 = 1) :: binN n v

/-- `val(s)` of R8: `Σ_j s[j] · 2^(len(s)−1−j)`. -/
def val : Bits → Nat
  | [] => 0
  | b :: s => b.toNat * 2 ^ s.length + val s

/-- The first `n` pieces of `c` elements each, in order. -/
def chunks {α : Type} (c : Nat) : Nat → List α → List (List α)
  | 0, _ => []
  | n + 1, s => s.take c :: chunks c n (s.drop c)

/-- `s` extended on the right with zero bits to length `n`. -/
def padTo (n : Nat) (s : Bits) : Bits := s ++ List.replicate (n - s.length) false

/-- How many payload bytes a `bits` field of `l` bits has: `ceil(l/8)` (R44). -/
def payloadBytes (l : Nat) : Nat := (l + 7) / 8

/-- The payload of a bit string: bit `j` is bit `7 − (j mod 8)` of byte `j div 8`; the spare low bits of the
last byte are written as 0 (R44, 20_memory R31(c)). -/
def packBits (s : Bits) : List Byte :=
  (chunks 8 (payloadBytes s.length) s).map fun g => BitVec.ofNat 8 (val (padTo 8 g))

/-- The bits of payload bytes, the most significant bit of each byte first (R44). -/
def unpackBits (bs : List Byte) : Bits := bs.flatMap fun b => binN 8 b.toNat

/-- The code units of `2·C` payload bytes, each least significant byte first (R46). -/
def unitsOf (c : Nat) (bs : List Byte) : Text :=
  (chunks 2 c bs).map fun g => BitVec.ofNat 16 (leNat g)

/-! ## Writing fields -/

/-- A `u32` field (R42). -/
def putU32 (v : Word) : Packet := leBytes 4 v.toNat

/-- An `f64` field: eight bytes, least significant first (R45). -/
def putF64 (v : F64) : Packet := leBytes 8 v.toNat

/-- A `bytes` field: a `u32` length, then the bytes (R43). -/
def putKey (key : Key) : Packet := putU32 (BitVec.ofNat 32 key.length) ++ key

/-- A `bits` field: a `u32` length in bits, then the payload (R44). -/
def putBits (s : Bits) : Packet := putU32 (BitVec.ofNat 32 s.length) ++ packBits s

/-- A `text` field: a `u32` character count, then the code units (R46). -/
def putText (t : Text) : Packet :=
  putU32 (BitVec.ofNat 32 t.length) ++ t.flatMap fun c => leBytes 2 c.toNat

/-! ## Reading fields -/

/-- Why a packet is not a command (R50, R51). Every one of them is answered `IllegalCommand` and changes no
state; the name only says which clause applied. -/
inductive Reject where
  /-- The packet is empty (R51). -/
  | emptyPacket
  /-- The opcode is not in the map (R50). -/
  | illegalOpcode (op : Byte)
  /-- The packet is shorter than the fixed part of its format, or a length prefix asks for more bytes than
  the packet has (R51). -/
  | truncated
  /-- Bytes remain after the last field (R51). -/
  | trailingBytes
  /-- A `text` count exceeds 286331154 (R51, R56). -/
  | textTooLong
deriving DecidableEq, Repr

/-- A reader of one field: the field's value and the bytes after it, or why there is none. -/
abbrev FieldReader (α : Type) := Packet → Except Reject (α × Packet)

/-- The first `n` bytes and the rest. -/
def takeBytes (n : Nat) : FieldReader (List Byte) := fun bs =>
  if n ≤ bs.length then .ok (bs.take n, bs.drop n) else .error .truncated

/-- Read a `u8` field (R42). -/
def takeU8 : FieldReader Byte
  | [] => .error .truncated
  | b :: bs => .ok (b, bs)

/-- Read a `u32` field (R42). -/
def takeU32 : FieldReader Word := fun bs =>
  match takeBytes 4 bs with
  | .ok (f, rest) => .ok (BitVec.ofNat 32 (leNat f), rest)
  | .error r => .error r

/-- Read an `f64` field (R45): all 64 bits as they stand. -/
def takeF64 : FieldReader F64 := fun bs =>
  match takeBytes 8 bs with
  | .ok (f, rest) => .ok (BitVec.ofNat 64 (leNat f), rest)
  | .error r => .error r

/-- Read a `bytes` field (R43). The bytes are not checked to be UTF-8. -/
def takeKey : FieldReader Key := fun bs =>
  match takeU32 bs with
  | .ok (n, rest) => takeBytes n.toNat rest
  | .error r => .error r

/-- Read a `bits` field (R44); the spare low bits of the last payload byte are ignored. -/
def takeBits : FieldReader Bits := fun bs =>
  match takeU32 bs with
  | .ok (l, rest) =>
    match takeBytes (payloadBytes l.toNat) rest with
    | .ok (f, rest') => .ok ((unpackBits f).take l.toNat, rest')
    | .error r => .error r
  | .error r => .error r

/-- Read a `text` field (R46, R56). -/
def takeText : FieldReader Text := fun bs =>
  match takeU32 bs with
  | .ok (c, rest) =>
    if maxTextLength < c.toNat then .error .textTooLong
    else
      match takeBytes (2 * c.toNat) rest with
      | .ok (f, rest') => .ok (unitsOf c.toNat f, rest')
      | .error r => .error r
  | .error r => .error r

/-- Nothing may stand after the last field (R41, R51). -/
def endOfPacket {α : Type} : Except Reject (α × Packet) → Except Reject α
  | .ok (a, []) => .ok a
  | .ok (_, _ :: _) => .error .trailingBytes
  | .error r => .error r

/-- Read a field, then what follows it. -/
def thenTake {α β : Type} (first : FieldReader α) (second : α → FieldReader β) : FieldReader β := fun bs =>
  match first bs with
  | .ok (a, rest) => second a rest
  | .error r => .error r

/-- Apply a constructor to the value a reader gives. -/
def mapField {α β : Type} (f : α → β) (read : FieldReader α) : FieldReader β := fun bs =>
  match read bs with
  | .ok (a, rest) => .ok (f a, rest)
  | .error r => .error r

/-! ## The opcode map -/

/-- The ten opcodes of R49. -/
inductive Opcode where
  | hash | sbfInit | sbfCfg | sbfInsert | sbfSeal | sbfQuery | sbfInfo | sbfExport | b15Enc | b15Dec
deriving DecidableEq, Repr

/-- Every opcode, in the table's order. -/
def Opcode.all : List Opcode :=
  [.hash, .sbfInit, .sbfCfg, .sbfInsert, .sbfSeal, .sbfQuery, .sbfInfo, .sbfExport, .b15Enc, .b15Dec]

/-- The opcode byte of R49. -/
def Opcode.code : Opcode → Byte
  | .hash => 0x01
  | .sbfInit => 0x10
  | .sbfCfg => 0x11
  | .sbfInsert => 0x12
  | .sbfSeal => 0x13
  | .sbfQuery => 0x14
  | .sbfInfo => 0x15
  | .sbfExport => 0x16
  | .b15Enc => 0x20
  | .b15Dec => 0x21

/-- Byte 0 alone selects the format (R52); a byte outside the map is illegal (R50). -/
def Opcode.ofByte (b : Byte) : Option Opcode := Opcode.all.find? fun o => o.code == b

/-- The operand fields of each format of R48, in packet order. -/
def readOperands : Opcode → FieldReader Instr
  | .hash => thenTake takeU32 fun seed => mapField (fun key => .hash seed key) takeKey
  | .sbfInit =>
    thenTake takeU32 fun n => thenTake takeF64 fun p => mapField (fun w => .sbfInit n p w) takeU8
  | .sbfCfg =>
    thenTake takeU32 fun m => thenTake takeU32 fun k => mapField (fun w => .sbfCfg m k w) takeU8
  | .sbfInsert => thenTake takeU32 fun freq => mapField (fun key => .sbfInsert freq key) takeKey
  | .sbfSeal => fun bs => .ok (.sbfSeal, bs)
  | .sbfQuery => mapField (fun key => .sbfQuery key) takeKey
  | .sbfInfo => fun bs => .ok (.sbfInfo, bs)
  | .sbfExport => fun bs => .ok (.sbfExport, bs)
  | .b15Enc => mapField (fun bits => .b15Enc bits) takeBits
  | .b15Dec => mapField (fun text => .b15Dec text) takeText

/-- The decoder: byte 0 is the opcode, then the operand fields, and nothing after the last one (R41). -/
def decode : Packet → Except Reject Instr
  | [] => .error .emptyPacket
  | b :: bs =>
    match Opcode.ofByte b with
    | none => .error (.illegalOpcode b)
    | some o => endOfPacket (readOperands o bs)

/-- The opcode of a command. -/
def Instr.opcode : Instr → Opcode
  | .hash _ _ => .hash
  | .sbfInit _ _ _ => .sbfInit
  | .sbfCfg _ _ _ => .sbfCfg
  | .sbfInsert _ _ => .sbfInsert
  | .sbfSeal => .sbfSeal
  | .sbfQuery _ => .sbfQuery
  | .sbfInfo => .sbfInfo
  | .sbfExport => .sbfExport
  | .b15Enc _ => .b15Enc
  | .b15Dec _ => .b15Dec

/-- The operand fields of a command in the order of R48. -/
def Instr.operandBytes : Instr → Packet
  | .hash seed key => putU32 seed ++ putKey key
  | .sbfInit n p w => putU32 n ++ putF64 p ++ [w]
  | .sbfCfg m k w => putU32 m ++ putU32 k ++ [w]
  | .sbfInsert freq key => putU32 freq ++ putKey key
  | .sbfSeal => []
  | .sbfQuery key => putKey key
  | .sbfInfo => []
  | .sbfExport => []
  | .b15Enc bits => putBits bits
  | .b15Dec text => putText text

/-- The encoder: the packet of a command (R41, R48, R49). -/
def encode (i : Instr) : Packet := i.opcode.code :: i.operandBytes

/-! ## Packets as numbered bits (spec/opcode_table.json) -/

/-- How many bytes the packet whose bits are `w` has by its own opcode and length prefix (the last column of
R48). The opcode table numbers only the opcode byte, and the length of a packet is the transport's (R52), so
the length the format gives is used (log 3). -/
def packetLength (w : Nat) : Nat :=
  match Opcode.ofByte (BitVec.ofNat 8 w) with
  | none => 1
  | some .hash => 9 + w / 2 ^ 40 % 2 ^ 32
  | some .sbfInit => 14
  | some .sbfCfg => 10
  | some .sbfInsert => 9 + w / 2 ^ 40 % 2 ^ 32
  | some .sbfSeal => 1
  | some .sbfQuery => 5 + w / 2 ^ 8 % 2 ^ 32
  | some .sbfInfo => 1
  | some .sbfExport => 1
  | some .b15Enc => 5 + payloadBytes (w / 2 ^ 8 % 2 ^ 32)
  | some .b15Dec => 5 + 2 * (w / 2 ^ 8 % 2 ^ 32)

/-- The packet whose low `nbits` bits are those of `w`, byte 0 first, and whose other bits are 0. -/
def packetOfWord (nbits w : Nat) : Packet :=
  leBytes (max ((nbits + 7) / 8) (packetLength (w % 2 ^ nbits))) (w % 2 ^ nbits)

/-- What the decoder reads from an instruction whose bits are `w`. -/
def decodeTableWord (nbits w : Nat) : Option Instr :=
  match decode (packetOfWord nbits w) with
  | .ok i => some i
  | .error _ => none

end Sys2Proof
end

