-- ==== Sys2Proof/Machine/State.lean ====
section
/-! DEFINITION. The state of the block (10_state R10: `PHASE`, `W`, `K`, `M`, `SLOT`), its command port, the
reasons a step can stop, and the state after reset. -/

namespace Sys2Proof.Machine

/-- `PHASE`, the lifecycle of the filter unit (R14): no filter, under construction, read-only. "Value 3 is
never held", so the type has no fourth value. -/
inductive Phase where
  | idle | build | sealed
deriving DecidableEq, Repr

/-- The 2-bit value of `PHASE` (R14). -/
def Phase.code : Phase → BitVec 2
  | .idle => 0
  | .build => 1
  | .sealed => 2

/-- The status codes of 60_exceptions R110. -/
inductive Status where
  | ok | invalidParameter | emptyInput | decodeError | wrongPhase | illegalCommand
deriving DecidableEq, Repr

/-- The exactly two things the host can do to the block (70_reset R133). -/
inductive HostEvent where
  /-- Issue a command packet (30_encoding R40). -/
  | command (packet : Packet)
  /-- Reset the block; `inProgress` is the command that was in progress, if there was one: it is abandoned
  without a response (70_reset R125; log 3). -/
  | reset (inProgress : Option Packet)
deriving DecidableEq, Repr

/-- The slots written since the reset: pairs of a slot index and its value, indices strictly rising. A slot that is
not listed holds the free value `Config.resetSlot` (10_state R23; log 4). An entry is never dropped for being equal to
that value, which nothing can evaluate. -/
abbrev SlotMem := List (Nat × Slot)

/-- The canonical form of a slot array: indices strictly rising, so that equal arrays are equal lists. -/
def SlotMem.wf : SlotMem → Bool
  | [] => true
  | [_] => true
  | a :: b :: rest => decide (a.1 < b.1) && SlotMem.wf (b :: rest)

/-- Everything the block holds between two commands (R10), and its command port. -/
structure State where
  /-- `PHASE` (R14). -/
  phase : Phase
  /-- `W`, the counter width, 5 bits (R15). -/
  w : BitVec 5
  /-- `K`, the hash count (R16). -/
  k : Word
  /-- `M`, the slot count (R17). -/
  m : Word
  /-- `SLOT[0 … M_MAX − 1]` (R18): the slots written since the reset. `State.slot` reads the array. -/
  slots : SlotMem
  /-- How many resets the block has seen since `State.reset`: the model's own field, which names the free values that
  the slots hold after this reset (R23; log 4). -/
  resets : Nat
  /-- What the host does next, oldest first: the model's own field (R40, R133; log 1). -/
  inbox : List HostEvent
  /-- The responses the host has received, oldest first: the model's own field (R133; log 2). -/
  responses : List Packet
deriving DecidableEq, Repr

/-- The stops of the model. "Nothing in the block is `stuck`" (93_implementation_defined): each stands only
for states no run reaches (10_state R22), where a rule's own precondition fails. All are safe: the model
stops where the spec says nothing (log 8). -/
inductive Fault where
  /-- Raised by a slot access at an index that is not below `M` (20_memory R25, R27), which takes in the
  remainder by `M = 0` that R8 excludes. Safe. -/
  | slotOutOfRange
  /-- Raised by a minimum over no candidate slots, `K = 0` (10_state R16). Safe. -/
  | noCandidates
deriving DecidableEq, Repr

/-- The refusals of the model. -/
inductive Refusal where
  /-- Raised by `exec` for an instruction that has no meaning in the model. No arm raises it. Safe. -/
  | notModelled (mnemonic : String)
deriving DecidableEq, Repr

/-- The block right after reset (10_state R23, 70_reset R125): no filter, `W = K = M = 0`, every slot
at its free value (log 4); nothing issued and nothing answered (log 1, log 2). -/
def State.reset : State where
  phase := .idle
  w := 0
  k := 0
  m := 0
  slots := []
  resets := 0
  inbox := []
  responses := []

end Sys2Proof.Machine
end

