-- ==== Sys2Proof/Machine/Flags.lean ====
section
/-! DEFINITION. The block has no flags and no condition codes (10_state R13). What reports the outcome of a
command is the status byte of its response (60_exceptions R110); this file gives its codes. -/

namespace Sys2Proof.Machine

/-- The status byte (60_exceptions R110). Codes `0x06 … 0xFF` are never produced. -/
def Status.code : Status → Byte
  | .ok => 0x00
  | .invalidParameter => 0x01
  | .emptyInput => 0x02
  | .decodeError => 0x03
  | .wrongPhase => 0x04
  | .illegalCommand => 0x05

end Sys2Proof.Machine
end

