-- ==== Sys2Proof/Machine/Ops.lean ====
section
/-! DEFINITION. The operations the commands share: the slot array, answering a command, raising a status
(60_exceptions R111) and the phase check (41_filter R74). -/

namespace Sys2Proof.Machine

/-! ## The slot array -/

/-- The value last written to slot `j` since the reset, if there is one. -/
def SlotMem.read : SlotMem → Nat → Option Slot
  | [], _ => none
  | (i, v) :: rest, j => if i = j then some v else SlotMem.read rest j

/-- `SLOT[j] <- v`, keeping the canonical form. -/
def SlotMem.write : SlotMem → Nat → Slot → SlotMem
  | [], j, v => [(j, v)]
  | (i, u) :: rest, j, v =>
    if j < i then (j, v) :: (i, u) :: rest
    else if j = i then (j, v) :: rest
    else (i, u) :: SlotMem.write rest j v

/-- `for j in 0 … m − 1: SLOT[j] <- 0` (41_filter R75, R76). The slots from `m` on keep what they held. -/
def SlotMem.clear (mem : SlotMem) (m : Nat) : SlotMem :=
  ((List.range m).map fun j => (j, 0)) ++ mem.filter fun c => decide (m ≤ c.1)

/-- `SLOT[j]`, 31 bits (10_state R18): the value last written, or, of a slot that nothing has written since the
reset, the free value (R23; log 4). -/
def State.slot (s : State) (j : Nat) : Slot := (s.slots.read j).getD (Config.resetSlot s.resets j)

/-- Read slot `j` of the filter; the address space is `0 ≤ j < M` (20_memory R25). -/
def State.readSlot (s : State) (j : Nat) : Except Fault Slot :=
  if j < s.m.toNat then .ok (s.slot j) else .error .slotOutOfRange

/-- Write slot `j` of the filter (20_memory R25). -/
def State.writeSlot (s : State) (j : Nat) (v : Slot) : Except Fault State :=
  if j < s.m.toNat then .ok { s with slots := s.slots.write j v } else .error .slotOutOfRange

/-- The values of a list of slots, in the list's order. -/
def State.readSlots (s : State) : List Nat → Except Fault (List Slot)
  | [] => .ok []
  | j :: js =>
    match s.readSlot j with
    | .error f => .error f
    | .ok v =>
      match s.readSlots js with
      | .error f => .error f
      | .ok vs => .ok (v :: vs)

/-- Clear the first `m` slots and enter `BUILD` with the given sizes: the part of `SBF_INIT` and `SBF_CFG`
after their checks (41_filter R75, R76). -/
def State.configure (s : State) (w : BitVec 5) (k m : Word) : State :=
  { s with phase := .build, w := w, k := k, m := m, slots := s.slots.clear m.toNat }

/-! ## Ending a command -/

/-- Hand a response packet to the host. -/
def State.answered (s : State) (packet : Packet) : State :=
  { s with responses := s.responses ++ [packet] }

/-- `respond(v…)`: status `OK`, then the result fields (00_scope R8, 30_encoding R47). -/
def respond (fields : Packet) (s : State) : Host.Outcome State Fault Refusal :=
  .next (s.answered (Status.ok.code :: fields))

/-- `raise <Status>`: the command ends at once, no state is changed by it, and the response is the one status
byte (60_exceptions R111). There is no trap entry beside it and nothing to return from (R119, R120). -/
def raise (status : Status) (s : State) : Host.Outcome State Fault Refusal :=
  .next (s.answered [status.code])

/-- The phase requirement of a filter command, checked before any operand value (41_filter R74). -/
def whenPhase (required : Phase) (s : State) (body : Host.Outcome State Fault Refusal) :
    Host.Outcome State Fault Refusal :=
  if s.phase = required then body else raise .wrongPhase s

/-- End a command whose result a slot operation computes: a fault of the slot array stops the machine. -/
def finish {α : Type} (result : Except Fault α) (body : α → Host.Outcome State Fault Refusal) :
    Host.Outcome State Fault Refusal :=
  match result with
  | .ok a => body a
  | .error f => .fault f

end Sys2Proof.Machine
end

