-- ==== Sys2Proof/Machine/Codec.lean ====
section
/-! DEFINITION. The codec unit (42_codec): the Base2p15 text of a bit string and back, and the commands B15_ENC
and B15_DEC. Both are pure: they read and write no state of the block. -/

namespace Sys2Proof.Machine

/-- `pad(L) = (15 − (L mod 15)) mod 15` (42_codec R95). -/
def padLength (l : Nat) : Nat := (15 - l % 15) % 15

/-- The header character: the lower-case hex digit of the padding length (42_codec R98). PRESUMED ASCII code
points: log 10. -/
def headerChar (pad : Nat) : CodeUnit :=
  if pad < 10 then BitVec.ofNat 16 (0x30 + pad) else BitVec.ofNat 16 (0x61 + (pad - 10))

/-- `HexVal(c)`, defined on exactly the 15 code points `'0'` to `'9'` and `'a'` to `'e'` (42_codec R98). -/
def hexVal (c : CodeUnit) : Option Nat :=
  if 0x30 ≤ c.toNat ∧ c.toNat ≤ 0x39 then some (c.toNat - 0x30)
  else if 0x61 ≤ c.toNat ∧ c.toNat ≤ 0x65 then some (c.toNat - 0x61 + 10)
  else none

/-- The data character of a 15-bit group: its value plus 161 (42_codec R96, R97). -/
def dataChar (group : Bits) : CodeUnit := BitVec.ofNat 16 (val group + 161)

/-- The data code points are exactly `161 … 32928` (42_codec R97, 90_conflicts C6). -/
def isDataChar (c : CodeUnit) : Bool := decide (161 ≤ c.toNat) && decide (c.toNat ≤ 32928)

/-- `B15_ENC(s)` (42_codec R99): the header, then one character per 15-bit group of the padded string. -/
def b15Encode (s : Bits) : Text :=
  let pad := padLength s.length
  headerChar pad ::
    (chunks 15 ((s.length + pad) / 15) (s ++ List.replicate pad false)).map dataChar

/-- `B15_DEC(t)` (42_codec R102): `none` for its four causes of `DecodeError` (60_exceptions R114). The dropped
bits are not examined (R106). -/
def b15Decode : Text → Option Bits
  | [] => none
  | header :: rest =>
    match hexVal header with
    | none => none
    | some pad =>
      if !rest.all isDataChar then none
      else if 15 * rest.length < pad then none
      else some ((rest.flatMap fun c => binN 15 (c.toNat - 161)).take (15 * rest.length - pad))

/-- B15_ENC (42_codec R99): total on bit strings, legal in every phase. -/
def execB15Enc (bits : Bits) (s : State) : Host.Outcome State Fault Refusal :=
  respond (putText (b15Encode bits)) s

/-- B15_DEC (42_codec R102): legal in every phase. -/
def execB15Dec (text : Text) (s : State) : Host.Outcome State Fault Refusal :=
  match b15Decode text with
  | none => raise .decodeError s
  | some bits => respond (putBits bits) s

end Sys2Proof.Machine
end

