-- ==== Sys2Proof/Machine/Operands.lean ====
section
/-! DEFINITION. What an operand's value means beyond its field (30_encoding R53): the counter width `w` and
the exact real value of the rate `p` (R45; 41_filter R71). Every other operand is used as it stands. -/

namespace Sys2Proof.Machine

/-- The width check `1 ≤ w ≤ 31` on the `u8` field (41_filter R71). -/
def widthOk (w : Byte) : Bool := decide (1 ≤ w.toNat) && decide (w.toNat ≤ 31)

/-- The sign bit of a binary64 datum (30_encoding R45). PRESUMED layout: log 10. -/
def F64.sign (p : F64) : Bool := p.getLsbD 63

/-- The 11-bit biased exponent field (R45). -/
def F64.exponentField (p : F64) : Nat := p.toNat / 2 ^ 52 % 2 ^ 11

/-- The 52-bit fraction field (R45). -/
def F64.fraction (p : F64) : Nat := p.toNat % 2 ^ 52

/-- The integer significand of a finite datum: with the hidden bit for a normal number, without it for a
subnormal one. The magnitude is `significand · 2^(scale − 1075)`. -/
def F64.significand (p : F64) : Nat :=
  if F64.exponentField p = 0 then F64.fraction p else 2 ^ 52 + F64.fraction p

/-- The exponent that goes with the significand, at least 1. -/
def F64.scale (p : F64) : Nat := max 1 (F64.exponentField p)

/-- NaN or an infinity: the exponent field is all ones (R45). -/
def F64.isFinite (p : F64) : Bool := decide (F64.exponentField p ≠ 2047)

/-- The rate check `0 < p ≤ 1` on the exact real value; "a NaN or an infinity fails it", and so does either
zero (41_filter R71, 30_encoding R45). -/
def rateOk (p : F64) : Bool :=
  !F64.sign p && F64.isFinite p && decide (0 < F64.significand p) &&
    decide (F64.significand p * 2 ^ F64.scale p ≤ 2 ^ 1075)

end Sys2Proof.Machine
end

