-- ==== Sys2Proof/Machine/Hash.lean ====
section
/-! DEFINITION. The hash unit (40_hash): Murmur3 x86-32 with the one departure that the empty key hashes to 0,
and the command HASH. The constants, rotation and shift amounts are the spec's, supplied from general knowledge
(93_implementation_defined G1 to G6; log 9). -/

namespace Sys2Proof.Machine

/-- `C1` (40_hash R69). -/
def hashC1 : Word := 0xCC9E2D51
/-- `C2` (40_hash R69). -/
def hashC2 : Word := 0x1B873593
/-- `N1` (40_hash R69). -/
def hashN1 : Word := 0xE6546B64
/-- `F1` (40_hash R69). -/
def hashF1 : Word := 0x85EBCA6B
/-- `F2` (40_hash R69). -/
def hashF2 : Word := 0xC2B2AE35

/-- `rotl32(a, r)` for `r` in [1, 31] (00_scope R8). -/
def rotl32 (a : Word) (r : Nat) : Word := (a <<< r) ||| (a >>> (32 - r))

/-- The mixing of a block or tail word: multiply, rotate, multiply (40_hash R63, R64). -/
def mixWord (k1 : Word) : Word := rotl32 (k1 * hashC1) 15 * hashC2

/-- `BlockMix(h, k1)` (40_hash R63). -/
def blockMix (h k1 : Word) : Word := rotl32 (h ^^^ mixWord k1) 13 * 5 + hashN1

/-- `TailMix`: the 1 to 3 tail bytes as a little-endian word, mixed and xored in, without the accumulator's
own step (40_hash R64, 20_memory R29). -/
def tailMix (h : Word) (tail : List Byte) : Word := h ^^^ mixWord (BitVec.ofNat 32 (leNat tail))

/-- `Fmix(h)` (40_hash R66). -/
def fmix (h : Word) : Word :=
  let h1 := h ^^^ (h >>> 16)
  let h2 := h1 * hashF1
  let h3 := h2 ^^^ (h2 >>> 13)
  let h4 := h3 * hashF2
  h4 ^^^ (h4 >>> 16)

/-- The key's 4-byte blocks in order, each read as a little-endian word (40_hash R63; 20_memory R28). -/
def hashBlocks (key : Key) : List Word :=
  (chunks 4 (key.length / 4) key).map fun block => BitVec.ofNat 32 (leNat block)

/-- The 0 to 3 bytes after the last block (40_hash R64). -/
def hashTail (key : Key) : List Byte := key.drop (4 * (key.length / 4))

/-- The accumulator after the blocks and, if there are bytes left, the tail (40_hash R63, R64). -/
def hashBytes (h : Word) (key : Key) : Word :=
  let h := (hashBlocks key).foldl blockMix h
  if hashTail key = [] then h else tailMix h (hashTail key)

/-- `HASH(key, seed)` (40_hash R60 to R66): 0 for the empty key (R61); else the accumulator starts as the seed
(R62), takes in the blocks and the tail, then the length (R65), and is finalised. -/
def hashKey (key : Key) (seed : Word) : Word :=
  if key = [] then 0 else fmix (hashBytes seed key ^^^ BitVec.ofNat 32 key.length)

/-- HASH (40_hash R60): legal in every phase, reads and writes no state. -/
def execHash (seed : Word) (key : Key) (s : State) : Host.Outcome State Fault Refusal :=
  respond (putU32 (hashKey key seed)) s

end Sys2Proof.Machine
end

