-- ==== Sys2Proof/Machine/Sizing.lean ====
section
/-! DEFINITION. Sizing (41_filter R70): `m = ceil(−n·ln p / (ln 2)²)` and `k = ceil((m/n)·ln 2)`, the reference
being exact real arithmetic on the exact value of `p`. The logarithms are enclosed between two rationals with the
common denominator `2^128`; where the enclosure, widened by a relative `2^-40` for an implementation that evaluates
the formula in floating point, leaves one integer, the result is that integer; where the real value is closer to an
integer than that, R70 lets implementations differ and the result is a free value within the enclosure (log 6, log 7). -/

namespace Sys2Proof.Machine

/-- The denominator of the enclosures. -/
def lnUnit : Nat := 2 ^ 128

/-- `Σ_{i ≤ j < i+n} z^(2j+1)/(2j+1)` in units of `1/lnUnit`, each division rounded down; `z = a/b`, and `t` is
`z^(2i+1)` in those units. -/
def artanhSum (a b : Nat) : Nat → Nat → Nat → Nat
  | 0, _, _ => 0
  | n + 1, i, t => t / (2 * i + 1) + artanhSum a b n (i + 1) (t * (a * a) / (b * b))

/-- How far `lnLower` may lie below the logarithm, in units of `1/lnUnit`. -/
def lnSlack : Nat := 512

/-- A lower bound of `lnUnit · ln(c/d)` for `d ≤ c ≤ 2·d`: 48 terms of `ln y = 2·artanh((y−1)/(y+1))`. -/
def lnLower (c d : Nat) : Nat := 2 * artanhSum (c - d) (c + d) 48 0 (lnUnit * (c - d) / (c + d))

/-- An upper bound of `lnUnit · ln(c/d)` for `d ≤ c ≤ 2·d`. -/
def lnUpper (c d : Nat) : Nat := lnLower c d + lnSlack

/-- The rate `p` of a valid datum is `(c/d)·2^-s` with `1 ≤ c/d < 2`: `c` is the significand and `d` the power of
two below it. -/
def rateDen (p : F64) : Nat := 2 ^ (F64.significand p).log2

/-- The `s` of `p = (c/d)·2^-s`. -/
def rateShift (p : F64) : Nat := 1075 - F64.scale p - (F64.significand p).log2

/-- A lower bound of `lnUnit · (−ln p) = lnUnit · (s·ln 2 − ln(c/d))`. -/
def negLnLower (p : F64) : Nat :=
  rateShift p * lnLower 2 1 - lnUpper (F64.significand p) (rateDen p)

/-- An upper bound of `lnUnit · (−ln p)`; `ln 1 = 0` exactly. -/
def negLnUpper (p : F64) : Nat :=
  rateShift p * lnUpper 2 1 - lnLower (F64.significand p) (rateDen p)

/-- `ceil(a/b)` for `b ≥ 1`. -/
def ceilDiv (a b : Nat) : Nat := (a + b - 1) / b

/-- The relative margin `2^-40` within which R70 lets a floating-point evaluation differ. DESIGN CHOICE (log 7):
the spec names no rounding error. -/
def sizingMargin : Nat := 2 ^ 40

/-- The least slot count R70 allows for `(n, p)`. -/
def slotCountLower (n : Nat) (p : F64) : Nat :=
  ceilDiv (n * negLnLower p * lnUnit * (sizingMargin - 1)) (lnUpper 2 1 ^ 2 * sizingMargin)

/-- The greatest slot count R70 allows for `(n, p)`. -/
def slotCountUpper (n : Nat) (p : F64) : Nat :=
  ceilDiv (n * negLnUpper p * lnUnit * (sizingMargin + 1)) (lnLower 2 1 ^ 2 * sizingMargin)

/-- The least hash count R70 allows for `m` slots and `n` keys. -/
def hashCountLower (n m : Nat) : Nat :=
  ceilDiv (m * lnLower 2 1 * (sizingMargin - 1)) (n * lnUnit * sizingMargin)

/-- The greatest hash count R70 allows for `m` slots and `n` keys. -/
def hashCountUpper (n m : Nat) : Nat :=
  ceilDiv (m * lnUpper 2 1 * (sizingMargin + 1)) (n * lnUnit * sizingMargin)

/-- An integer between `lo` and `hi`: the one there is, or the implementation's choice. -/
def within (lo hi choice : Nat) : Nat :=
  if hi ≤ lo then lo else lo + choice % (hi - lo + 1)

/-- The slot count `m` of `Sizing(n, p)` (41_filter R70), before it is compared with `M_MAX`. -/
def sizingM (n : Word) (p : F64) : Nat :=
  within (slotCountLower n.toNat p) (slotCountUpper n.toNat p) (Config.slotCountChoice n p)

/-- The hash count `k` of `Sizing(n, p)`, "computed from the *rounded* `m`" (41_filter R70). -/
def sizingK (n : Word) (p : F64) : Nat :=
  within (hashCountLower n.toNat (sizingM n p)) (hashCountUpper n.toNat (sizingM n p))
    (Config.hashCountChoice n p)

end Sys2Proof.Machine
end

