-- ==== Sys2Proof/Machine/Filter.lean ====
section
/-! DEFINITION. The filter unit (41_filter): index derivation, the saturating add, and the seven SBF commands. -/

namespace Sys2Proof.Machine

/-! ## Shared functions -/

/-- `Idx(x, i) = HASH(x, i) mod M` (41_filter R72): the hash taken as an unsigned number, the seed the index
itself. -/
def slotIndex (m : Word) (key : Key) (i : Nat) : Nat := (hashKey key (BitVec.ofNat 32 i)).toNat % m.toNat

/-- The candidate list `Idx(x, 0), …, Idx(x, K−1)`; it may name a slot more than once (41_filter R72). -/
def State.candidates (s : State) (key : Key) : List Nat :=
  (List.range s.k.toNat).map fun i => slotIndex s.m key i

/-- `cap = 2^W − 1` (41_filter R73). -/
def State.cap (s : State) : Nat := 2 ^ s.w.toNat - 1

/-- `SatAdd(a, f) = min(a + f, cap)` on the exact sum (41_filter R73, 70_reset R130). -/
def satAdd (cap a f : Nat) : Nat := min (a + f) cap

/-- The least of a list of slot values. A minimum over nothing is not defined (log 8). -/
def minSlot : List Slot → Except Fault Nat
  | [] => .error .noCandidates
  | v :: vs => .ok (vs.foldl (fun a b => min a b.toNat) v.toNat)

/-- The minimum of the key's candidate slots, all read before any write (41_filter R77, R79). -/
def State.minCandidate (s : State) (key : Key) : Except Fault Nat :=
  match s.readSlots (s.candidates key) with
  | .error f => .error f
  | .ok vs => minSlot vs

/-- `for each candidate c: if SLOT[c] ≤ new then SLOT[c] <- new` (41_filter R77). -/
def State.raiseSlots (new : Slot) : List Nat → State → Except Fault State
  | [], s => .ok s
  | c :: cs, s =>
    match s.readSlot c with
    | .error f => .error f
    | .ok v =>
      if v ≤ new then
        match s.writeSlot c new with
        | .error f => .error f
        | .ok s' => State.raiseSlots new cs s'
      else State.raiseSlots new cs s

/-- One conservative additive insertion (41_filter R77), as one indivisible transition (20_memory R33). -/
def State.insert (s : State) (freq : Word) (key : Key) : Except Fault State :=
  match s.minCandidate key with
  | .error f => .error f
  | .ok mn => State.raiseSlots (BitVec.ofNat 31 (satAdd s.cap mn freq.toNat)) (s.candidates key) s

/-- The counters of the filter as a bit string: slots in increasing index order, each as `bin_W` (41_filter R81,
R82; 20_memory R31(b)). -/
def State.exportBits (s : State) : Except Fault Bits :=
  match s.readSlots (List.range s.m.toNat) with
  | .error f => .error f
  | .ok vs => .ok (vs.flatMap fun v => binN s.w.toNat v.toNat)

/-! ## The commands -/

/-- SBF_INIT (41_filter R75): width, rate, empty input, computed size, in that order (60_exceptions R117), all
before any write. -/
def execSbfInit (n : Word) (p : F64) (w : Byte) (s : State) : Host.Outcome State Fault Refusal :=
  if !widthOk w then raise .invalidParameter s
  else if !rateOk p then raise .invalidParameter s
  else if n = 0 then raise .emptyInput s
  else if sizingM n p = 0 ∨ Config.mMax < sizingM n p then raise .invalidParameter s
  else
    respond (putU32 (BitVec.ofNat 32 (sizingM n p)) ++ putU32 (BitVec.ofNat 32 (sizingK n p)))
      (s.configure (w.setWidth 5) (BitVec.ofNat 32 (sizingK n p)) (BitVec.ofNat 32 (sizingM n p)))

/-- SBF_CFG (41_filter R76). -/
def execSbfCfg (m k : Word) (w : Byte) (s : State) : Host.Outcome State Fault Refusal :=
  if !widthOk w then raise .invalidParameter s
  else if m = 0 ∨ Config.mMax < m.toNat then raise .invalidParameter s
  else if k = 0 then raise .invalidParameter s
  else respond [] (s.configure (w.setWidth 5) k m)

/-- SBF_INSERT (41_filter R77). -/
def execSbfInsert (freq : Word) (key : Key) (s : State) : Host.Outcome State Fault Refusal :=
  whenPhase .build s (finish (s.insert freq key) (respond []))

/-- SBF_SEAL (41_filter R78). -/
def execSbfSeal (s : State) : Host.Outcome State Fault Refusal :=
  whenPhase .build s (respond [] { s with phase := .sealed })

/-- SBF_QUERY (41_filter R79): the minimum over the candidate slots, zero-extended to 32 bits. -/
def execSbfQuery (key : Key) (s : State) : Host.Outcome State Fault Refusal :=
  whenPhase .sealed s (finish (s.minCandidate key) fun mn => respond (putU32 (BitVec.ofNat 32 mn)) s)

/-- SBF_INFO (41_filter R80): `K`, `W` zero-extended, `M`, in that order. -/
def execSbfInfo (s : State) : Host.Outcome State Fault Refusal :=
  whenPhase .sealed s (respond (putU32 s.k ++ putU32 (s.w.setWidth 32) ++ putU32 s.m) s)

/-- SBF_EXPORT (41_filter R81). -/
def execSbfExport (s : State) : Host.Outcome State Fault Refusal :=
  whenPhase .sealed s (finish s.exportBits fun counters => respond (putBits counters) s)

end Sys2Proof.Machine
end

