-- ==== Sys2Proof/Machine/Dispatch.lean ====
section
/-! DEFINITION. One arm per command. -/

namespace Sys2Proof.Machine

/-- The meaning of a command in a state (30_encoding R49, column "semantics"). -/
def exec (i : Instr) (s : State) : Host.Outcome State Fault Refusal :=
  match i with
  | .hash seed key => Sys2Proof.Machine.execHash seed key s
  | .sbfInit n p w => Sys2Proof.Machine.execSbfInit n p w s
  | .sbfCfg m k w => Sys2Proof.Machine.execSbfCfg m k w s
  | .sbfInsert freq key => Sys2Proof.Machine.execSbfInsert freq key s
  | .sbfSeal => Sys2Proof.Machine.execSbfSeal s
  | .sbfQuery key => Sys2Proof.Machine.execSbfQuery key s
  | .sbfInfo => Sys2Proof.Machine.execSbfInfo s
  | .sbfExport => Sys2Proof.Machine.execSbfExport s
  | .b15Enc bits => Sys2Proof.Machine.execB15Enc bits s
  | .b15Dec text => Sys2Proof.Machine.execB15Dec text s

end Sys2Proof.Machine
end

