-- ==== Sys2Proof/Machine/Port.lean ====
section
/-! DEFINITION. The command port: what one host event does to the block (30_encoding R40, R50, R51; 70_reset
R125). -/

namespace Sys2Proof.Machine

/-- Reset (70_reset R125): `PHASE <- IDLE`, `W`, `K`, `M <- 0`, every slot unspecified (the free values of
one more reset, log 4), no response. What the host will do next and what it has received are the host's and stay
(log 3). -/
def State.resetBlock (s : State) : State :=
  { State.reset with resets := s.resets + 1, inbox := s.inbox, responses := s.responses }

/-- Perform the command in a packet completely and answer it (00_scope R2). Well-formedness is checked before
anything else (60_exceptions R117): a packet that is no command is answered `IllegalCommand` (R116). -/
def runPacket (packet : Packet) (s : State) : Host.Outcome State Fault Refusal :=
  match decode packet with
  | .ok i => exec i s
  | .error _ => raise .illegalCommand s

/-- What one event of the host does. A reset abandons the command in progress without a response (R125). -/
def runEvent : HostEvent → State → Host.Outcome State Fault Refusal
  | .command packet, s => runPacket packet s
  | .reset _, s => .next s.resetBlock

/-- Present a packet as the very next thing the host does. -/
def State.present (s : State) (packet : Packet) : State :=
  { s with inbox := .command packet :: s.inbox }

end Sys2Proof.Machine
end

