-- ==== Sys2Proof/Machine/Step.lean ====
section
/-! DEFINITION. One step: the host's next event, if there is one (20_memory R35; 70_reset R126, R133). -/

namespace Sys2Proof.Machine

/-- Take the oldest event of the host and do what it asks; with none, the block "waits for the first command"
and is quiescent (70_reset R126, R133; log 1). -/
def step (s : State) : Host.Outcome State Fault Refusal :=
  match s.inbox with
  | [] => .next s
  | event :: later => runEvent event { s with inbox := later }

/-- `s` with the instruction whose bits are `w` presented as the host's next command packet (log 3). -/
def State.withFetchWord (s : State) (nbits w : Nat) : State := s.present (packetOfWord nbits w)

end Sys2Proof.Machine
end

