-- ==== Sys2Proof/Machine/Pseudo.lean ====
section
/-! DEFINITION. The pseudo-instructions of 30_encoding R55: sequences of commands that the *host* issues; "the block
knows none of them" (log 11). -/

namespace Sys2Proof.Machine

/-- The host issues commands one after another (20_memory R35). -/
def runCommands : List Instr → State → Host.Outcome State Fault Refusal
  | [], s => .next s
  | i :: later, s =>
    match exec i s with
    | .next t => runCommands later t
    | .fault f => .fault f
    | .refused r => .refused r

/-- The host issues one `SBF_INSERT` per pair, in the written order. -/
def insertions (pairs : List (Key × Word)) : List Instr := pairs.map fun e => .sbfInsert e.2 e.1

/-- Whether the last response the host received is `OK`. -/
def State.lastOk (s : State) : Bool :=
  match s.responses.getLast? with
  | some (status :: _) => status == Status.ok.code
  | _ => false

/-- The result fields of the last response. -/
def State.lastFields (s : State) : Packet :=
  match s.responses.getLast? with
  | some (_ :: fields) => fields
  | _ => []

/-- `SBF_BUILD {k1:f1, …, kn:fn}, p, w`: `SBF_INIT n=<number of pairs>, p, w`; if that answered OK, one
`SBF_INSERT` per pair in the written order, then `SBF_SEAL` (R55). -/
def sbfBuild (pairs : List (Key × Word)) (p : F64) (w : Byte) (s : State) :
    Host.Outcome State Fault Refusal :=
  match exec (.sbfInit (BitVec.ofNat 32 pairs.length) p w) s with
  | .next t => if t.lastOk then runCommands (insertions pairs ++ [.sbfSeal]) t else .next t
  | .fault f => .fault f
  | .refused r => .refused r

/-- `SBF_INC key`: one step of the per-occurrence mode (R55, 41_filter R87). -/
def sbfInc (key : Key) : Instr := .sbfInsert 1 key

/-- `GET_FREQUENCY key` (R55). -/
def getFrequency (key : Key) : Instr := .sbfQuery key

/-- `SBF_EXPORT_TEXT`: `SBF_EXPORT`, then `B15_ENC` of the counters just returned (R55). If the export answers
an error there are no counters and the host stops. -/
def sbfExportText (s : State) : Host.Outcome State Fault Refusal :=
  match exec .sbfExport s with
  | .next t =>
    if t.lastOk then
      match takeBits t.lastFields with
      | .ok (counters, _) => exec (.b15Enc counters) t
      | .error _ => .next t
    else .next t
  | .fault f => .fault f
  | .refused r => .refused r

end Sys2Proof.Machine
end

