-- ==== Sys2Proof/Safety.lean ====
section
/-! DEFINITION. What counts as a safe run: the invariant of the state (10_state R22) and runs that neither fault nor
are refused. -/

namespace Sys2Proof.Machine

/-- Two states whose blocks, the tuple `(PHASE, W, K, M, SLOT)` of 10_state R10, are the same; the command port
may differ. The array `SLOT` is the slots written and the free values of the others, which the reset count names. -/
structure State.SameBlock (s t : State) : Prop where
  phase : t.phase = s.phase
  w : t.w = s.w
  k : t.k = s.k
  m : t.m = s.m
  slots : t.slots = s.slots
  resets : t.resets = s.resets

/-- What holds in every reachable state (10_state R22 (a) to (c), R23, R18, R19). The phase has only its three legal
values by its type, and `W ≤ 31` by its width. -/
structure State.Inv (s : State) : Prop where
  /-- The slot array is in canonical form. -/
  slots_canonical : s.slots.wf = true
  /-- Only the `M_MAX` slots of the array exist (R18). -/
  slots_exist : ∀ c ∈ s.slots, c.1 < Config.mMax
  /-- `W`, `K`, `M` keep their reset values until a filter exists (R23). -/
  idle_zero : s.phase = .idle → s.w = 0 ∧ s.k = 0 ∧ s.m = 0
  /-- `1 ≤ W` when `PHASE ≠ IDLE` (R15, R22 (b)). -/
  width_legal : s.phase ≠ .idle → 1 ≤ s.w.toNat
  /-- `1 ≤ K` when `PHASE ≠ IDLE` (R16, R22 (b)). -/
  count_legal : s.phase ≠ .idle → 1 ≤ s.k.toNat
  /-- `1 ≤ M ≤ M_MAX` when `PHASE ≠ IDLE` (R17, R22 (b)). -/
  size_legal : s.phase ≠ .idle → 1 ≤ s.m.toNat ∧ s.m.toNat ≤ Config.mMax
  /-- `SLOT[j] ≤ 2^W − 1` for all `j < M` when `PHASE ≠ IDLE` (R18, R22 (c)). -/
  slots_legal : s.phase ≠ .idle → ∀ j < s.m.toNat, (s.slot j).toNat ≤ s.cap
  /-- Every slot of a filter has been written since the reset: a slot's unspecified contents are "never observable"
  (R23). -/
  slots_written : s.phase ≠ .idle → ∀ j < s.m.toNat, (s.slots.read j).isSome = true

/-- Every run from the state, whatever the host does, neither faults nor is refused. -/
def State.Safe (s : State) : Prop := ∀ n, ∃ t, Sys2Proof.core.run n s = .next t

end Sys2Proof.Machine
end

