-- ==== Sys2Proof/Certificates/Slice0/Obligations.lean ====
section
/-! DEFINITION. The statements for the provers, from the numbered rules of spec/. The definitions of the first part write
a rule's own formula out once more, by position and with its literal constants, so that a statement does not repeat the
model's definition. -/

namespace Sys2Proof.Spec

open Sys2Proof.Machine

/-! ## The rules' formulas by position -/

/-- The four bytes of a `u32` field, least significant first (30_encoding R42). -/
def u32Bytes (v : Word) : Packet :=
  [v.extractLsb' 0 8, v.extractLsb' 8 8, v.extractLsb' 16 8, v.extractLsb' 24 8]

/-- The byte of a packet at an offset, as a number. -/
def byteAt (p : Packet) (o : Nat) : Nat := (p.getD o 0).toNat

/-- The `u32` field at an offset: `LE32` of its four bytes (30_encoding R42, 00_scope R8). -/
def u32At (p : Packet) (o : Nat) : Nat :=
  byteAt p o + 2 ^ 8 * byteAt p (o + 1) + 2 ^ 16 * byteAt p (o + 2) + 2 ^ 24 * byteAt p (o + 3)

/-- A `bits` field: the length, then `ceil(L/8)` bytes; bit `s[8i + r]` is bit `7 − r` of byte `i`, spare bits 0
(30_encoding R44). -/
def bitsField (s : Bits) : Packet :=
  u32Bytes (BitVec.ofNat 32 s.length) ++
    (List.range ((s.length + 7) / 8)).map fun i =>
      BitVec.ofNat 8 (∑ r ∈ Finset.range 8, if s.getD (8 * i + r) false then 2 ^ (7 - r) else 0)

/-- A `text` field: the character count, then two bytes a character, least significant first (30_encoding R46). -/
def textField (t : Text) : Packet :=
  u32Bytes (BitVec.ofNat 32 t.length) ++ t.flatMap fun c => [c.extractLsb' 0 8, c.extractLsb' 8 8]

/-- A packet that is a command: an opcode of R49 and exactly the length its format has in R48, with a `text` count
of at most 286331154 (R51, R56). -/
def IsCommandPacket (p : Packet) : Prop :=
  (p.head? = some 0x01 ∧ 9 ≤ p.length ∧ p.length = 9 + u32At p 5) ∨
  (p.head? = some 0x10 ∧ p.length = 14) ∨
  (p.head? = some 0x11 ∧ p.length = 10) ∨
  (p.head? = some 0x12 ∧ 9 ≤ p.length ∧ p.length = 9 + u32At p 5) ∨
  (p.head? = some 0x13 ∧ p.length = 1) ∨
  (p.head? = some 0x14 ∧ 5 ≤ p.length ∧ p.length = 5 + u32At p 1) ∨
  (p.head? = some 0x15 ∧ p.length = 1) ∨
  (p.head? = some 0x16 ∧ p.length = 1) ∨
  (p.head? = some 0x20 ∧ 5 ≤ p.length ∧ p.length = 5 + (u32At p 1 + 7) / 8) ∨
  (p.head? = some 0x21 ∧ 5 ≤ p.length ∧ u32At p 1 ≤ 286331154 ∧ p.length = 5 + 2 * u32At p 1)

/-- How each operand is assembled from the packet's bytes, with the offsets of R48 (R53, R42 to R46). -/
def OperandsOf (p : Packet) : Instr → Prop
  | .hash seed key => p.head? = some 0x01 ∧ seed.toNat = u32At p 1 ∧ key = p.drop 9
  | .sbfInit n rate w =>
    p.head? = some 0x10 ∧ n.toNat = u32At p 1 ∧ rate.toNat = u32At p 5 + 2 ^ 32 * u32At p 9 ∧
      w.toNat = byteAt p 13
  | .sbfCfg m k w =>
    p.head? = some 0x11 ∧ m.toNat = u32At p 1 ∧ k.toNat = u32At p 5 ∧ w.toNat = byteAt p 9
  | .sbfInsert freq key => p.head? = some 0x12 ∧ freq.toNat = u32At p 1 ∧ key = p.drop 9
  | .sbfSeal => p = [0x13]
  | .sbfQuery key => p.head? = some 0x14 ∧ key = p.drop 5
  | .sbfInfo => p = [0x15]
  | .sbfExport => p = [0x16]
  | .b15Enc bits =>
    p.head? = some 0x20 ∧ bits.length = u32At p 1 ∧
      ∀ j < bits.length, bits.getD j false = (p.getD (5 + j / 8) 0).getLsbD (7 - j % 8)
  | .b15Dec text =>
    p.head? = some 0x21 ∧ text.length = u32At p 1 ∧
      ∀ j < text.length, (text.getD j 0).toNat = byteAt p (5 + 2 * j) + 2 ^ 8 * byteAt p (6 + 2 * j)

/-- Block `i` of a key as a little-endian word (20_memory R28). -/
def keyBlock (key : Key) (i : Nat) : Word := BitVec.ofNat 32 (u32At key (4 * i))

/-- The tail word: the last 1 to 3 bytes, unsigned, little-endian (20_memory R29). A byte past the end counts 0. -/
def keyTail (key : Key) : Word :=
  let b := 4 * (key.length / 4)
  BitVec.ofNat 32 (byteAt key b + 2 ^ 8 * byteAt key (b + 1) + 2 ^ 16 * byteAt key (b + 2))

/-- The pseudocode of 40_hash R60 to R66 with the constants of R69, by block index. -/
def hashByRule (key : Key) (seed : Word) : Word :=
  if key.length = 0 then 0
  else
    let mix (k1 : Word) : Word := (k1 * 0xCC9E2D51).rotateLeft 15 * 0x1B873593
    let h := (List.range (key.length / 4)).foldl
      (fun h i => (h ^^^ mix (keyBlock key i)).rotateLeft 13 * 5 + 0xE6546B64) seed
    let h := if key.length % 4 = 0 then h else h ^^^ mix (keyTail key)
    let h := h ^^^ BitVec.ofNat 32 key.length
    let h := (h ^^^ (h >>> 16)) * 0x85EBCA6B
    let h := (h ^^^ (h >>> 13)) * 0xC2B2AE35
    h ^^^ (h >>> 16)

/-- Slot `j` is a candidate of the key: `j = HASH(x, i) mod M` for some `i < K` (41_filter R72). -/
def IsCandidate (s : State) (key : Key) (j : Nat) : Prop :=
  ∃ i < s.k.toNat, j = (hashKey key (BitVec.ofNat 32 i)).toNat % s.m.toNat

/-- `mn` is the minimum of the candidate slots: the value of one of them, and not above any (41_filter R77, R79). -/
def IsLeastCandidate (s : State) (key : Key) (mn : Nat) : Prop :=
  (∃ j, IsCandidate s key j ∧ (s.slot j).toNat = mn) ∧ ∀ j, IsCandidate s key j → mn ≤ (s.slot j).toNat

/-- Every candidate slot of the key holds at least `F`, capped: what 41_filter R83 rests on. -/
def HoldsFloor (s : State) (key : Key) (F : Nat) : Prop :=
  ∀ j, IsCandidate s key j → min F (2 ^ s.w.toNat - 1) ≤ (s.slot j).toNat

/-- The total frequency of a key in a list of insertions (41_filter R83). -/
def totalFrequency (pairs : List (Key × Word)) (key : Key) : Nat :=
  ((pairs.filter fun e => e.1 = key).map fun e => e.2.toNat).sum

/-- The exact real value of a binary64 datum that is neither a NaN nor an infinity (30_encoding R45). -/
noncomputable def binary64Value (p : F64) : ℝ :=
  (-1) ^ (p.toNat / 2 ^ 63) *
    if p.toNat / 2 ^ 52 % 2 ^ 11 = 0 then (p.toNat % 2 ^ 52 : ℕ) / 2 ^ 52 * (2 : ℝ) ^ (-1022 : ℤ)
    else (1 + (p.toNat % 2 ^ 52 : ℕ) / 2 ^ 52) * (2 : ℝ) ^ ((p.toNat / 2 ^ 52 % 2 ^ 11 : ℕ) - 1023 : ℤ)

/-- The real number whose ceiling is the slot count: `−n·ln(p)/(ln 2)²` (41_filter R70). -/
noncomputable def slotCountReal (n : Word) (p : F64) : ℝ :=
  -(n.toNat : ℝ) * Real.log (binary64Value p) / Real.log 2 ^ 2

/-- The real number whose ceiling is the hash count: `(m/n)·ln 2` (41_filter R70). -/
noncomputable def hashCountReal (n : Word) (m : Nat) : ℝ := (m : ℝ) / n.toNat * Real.log 2

/-- The header character's value: `HexVal` is defined on `'0'` to `'9'` and `'a'` to `'e'` (42_codec R98). -/
def IsHexVal (c : CodeUnit) (pad : Nat) : Prop :=
  (0x30 ≤ c.toNat ∧ c.toNat ≤ 0x39 ∧ pad = c.toNat - 0x30) ∨
    (0x61 ≤ c.toNat ∧ c.toNat ≤ 0x65 ∧ pad = c.toNat - 0x61 + 10)

/-- The four causes of `DecodeError` (60_exceptions R114, 42_codec R102). -/
def IsUndecodable (t : Text) : Prop :=
  t = [] ∨ (∃ c rest, t = c :: rest ∧ ¬ ∃ pad, IsHexVal c pad) ∨
    (∃ c ∈ t.tail, ¬ (161 ≤ c.toNat ∧ c.toNat ≤ 32928)) ∨
    (∃ c rest pad, t = c :: rest ∧ IsHexVal c pad ∧ 15 * rest.length < pad)

/-- The text of a bit string by position (42_codec R95 to R99): the header digit of `pad(L)`, then for each group `q`
the value of bits `15q … 15q + 14` of the padded string, most significant first, plus 161. -/
def textByRule (s : Bits) : Text :=
  let pad := (15 - s.length % 15) % 15
  (if pad < 10 then BitVec.ofNat 16 (0x30 + pad) else BitVec.ofNat 16 (0x61 + (pad - 10))) ::
    (List.range ((s.length + pad) / 15)).map fun q =>
      BitVec.ofNat 16
        ((∑ j ∈ Finset.range 15, if s.getD (15 * q + j) false then 2 ^ (14 - j) else 0) + 161)

/-- Two states a host cannot tell apart: the same registers and the same slots below `M`. -/
structure SameVisible (s t : State) : Prop where
  phase : t.phase = s.phase
  w : t.w = s.w
  k : t.k = s.k
  m : t.m = s.m
  slots : ∀ j < s.m.toNat, t.slot j = s.slot j

/-- A filter under construction with every slot still 0, as a successful `SBF_INIT` or `SBF_CFG` leaves it
(10_state R19). -/
structure FreshFilter (s : State) : Prop where
  inv : s.Inv
  phase : s.phase = .build
  slots : ∀ j < s.m.toNat, s.slot j = 0

end Sys2Proof.Spec

open Sys2Proof Sys2Proof.Machine Sys2Proof.Spec

/-! ## Reset, the port and the packets -/

/-- 70_reset R125: what a reset leaves, whatever the block held and whichever command was in progress. Each slot holds
the free value of this reset (log 4), of which nothing is known. -/
def Obligations.ResetEventEmptiesTheBlock : Prop :=
  ∀ (s : State) (inProgress : Option Packet) (later : List HostEvent),
    s.inbox = .reset inProgress :: later →
    ∃ t, step s = .next t ∧ t.phase = .idle ∧ t.w = 0 ∧ t.k = 0 ∧ t.m = 0 ∧
      (∀ j, t.slot j = Config.resetSlot (s.resets + 1) j) ∧ t.resets = s.resets + 1 ∧
      t.inbox = later ∧ t.responses = s.responses

/-- 10_state R23: the state after reset, each slot at its free value (log 4). -/
def Obligations.ResetStateIsIdle : Prop :=
  State.reset.phase = .idle ∧ State.reset.w = 0 ∧ State.reset.k = 0 ∧ State.reset.m = 0 ∧
    ∀ j, State.reset.slot j = Config.resetSlot State.reset.resets j

/-- A step takes the host's next command packet and runs the command it decodes to; so does the word the host places;
with nothing issued the block waits (the model's port: log 1, log 3). -/
def Obligations.StepRunsTheDecodedCommand : Prop :=
  (∀ (s : State) (p : Packet) (later : List HostEvent) (i : Instr),
    s.inbox = .command p :: later → decode p = .ok i → step s = exec i { s with inbox := later }) ∧
  (∀ (s : State) (nbits w : Nat) (i : Instr),
    decodeTableWord nbits w = some i → step (s.withFetchWord nbits w) = exec i s) ∧
  (∀ s : State, s.inbox = [] → step s = .next s)

/-- 30_encoding R50, R51; 60_exceptions R116: a packet that is no command is answered `IllegalCommand` and changes no
state. -/
def Obligations.OtherPacketsAreIllegalCommands : Prop :=
  ∀ (s : State) (p : Packet) (later : List HostEvent),
    s.inbox = .command p :: later → ¬ IsCommandPacket p →
    step s = .next { s with inbox := later, responses := s.responses ++ [[0x05]] }

/-- 30_encoding R48, R49, R53 with the field types of R42 to R46: a packet of a format's length decodes, and each
operand is assembled from the bytes at its offsets. -/
def Obligations.CommandPacketsDecodeByOffset : Prop :=
  ∀ p : Packet, IsCommandPacket p → ∃ i, decode p = .ok i ∧ i.wf = true ∧ OperandsOf p i

/-- Words written out from the spec's encodings decode to the commands they stand for (the packets of 95_test_vectors
V-H8, P1 step 1, P2 steps 1 and 3, V-E1, V-C14, V-C33 and the three one-byte commands). -/
def Obligations.WrittenOutPacketsDecode : Prop :=
  decode [0x01, 0, 0, 0, 0, 3, 0, 0, 0, 0x61, 0x62, 0x63] = .ok (.hash 0 [0x61, 0x62, 0x63]) ∧
  decode [0x10, 3, 0, 0, 0, 0x7B, 0x14, 0xAE, 0x47, 0xE1, 0x7A, 0x84, 0x3F, 4] =
    .ok (.sbfInit 3 0x3F847AE147AE147B 4) ∧
  decode [0x11, 5, 0, 0, 0, 2, 0, 0, 0, 2] = .ok (.sbfCfg 5 2 2) ∧
  decode [0x12, 5, 0, 0, 0, 1, 0, 0, 0, 0x78] = .ok (.sbfInsert 5 [0x78]) ∧
  decode [0x13] = .ok .sbfSeal ∧
  decode [0x14, 1, 0, 0, 0, 0x61] = .ok (.sbfQuery [0x61]) ∧
  decode [0x15] = .ok .sbfInfo ∧
  decode [0x16] = .ok .sbfExport ∧
  decode [0x20, 7, 0, 0, 0, 0xB2] = .ok (.b15Enc [true, false, true, true, false, false, true]) ∧
  decode [0x21, 2, 0, 0, 0, 0x38, 0, 0xA1, 0x59] = .ok (.b15Dec [0x38, 0x59A1])

/-- Decoding undoes encoding, for every command that a packet can express and every operand of it. -/
def Obligations.DecodeUndoesEncode : Prop :=
  ∀ i : Instr, i.wf = true → decode (encode i) = .ok i

/-- The other direction: a packet that decodes is the encoding of its command, but for the spare bits of a `bits`
operand, which are ignored (30_encoding R44). -/
def Obligations.EncodeUndoesDecode : Prop :=
  ∀ (p : Packet) (i : Instr), decode p = .ok i →
    (encode i).length = p.length ∧ decode (encode i) = .ok i ∧
      ((∀ bits, i ≠ .b15Enc bits) → encode i = p)

/-! ## The hash unit -/

/-- 40_hash R60 to R66, R69: HASH answers the digest of the pseudocode in every phase and changes nothing else. -/
def Obligations.HashCommandFollowsThePseudocode : Prop :=
  ∀ (seed : Word) (key : Key) (s : State),
    exec (.hash seed key) s =
      .next { s with responses := s.responses ++ [0x00 :: u32Bytes (hashByRule key seed)] }

/-- 40_hash R61: the empty key hashes to 0 for every seed. -/
def Obligations.EmptyKeyHashesToZero : Prop :=
  ∀ (seed : Word) (s : State),
    exec (.hash seed []) s = .next { s with responses := s.responses ++ [[0x00, 0, 0, 0, 0]] }

/-- 40_hash R67: the hashes inside `SBF_INSERT` and `SBF_QUERY` are the function HASH answers with. -/
def Obligations.FilterUsesTheOneHash : Prop :=
  ∀ (s : State) (key : Key) (j : Nat),
    j ∈ s.candidates key ↔
      ∃ i < s.k.toNat, j = (hashByRule key (BitVec.ofNat 32 i)).toNat % s.m.toNat

/-! ## Construction of a filter -/

/-- 30_encoding R45, 41_filter R71: the rate check is `0 < p ≤ 1` on the exact real value; NaN and infinities fail. -/
def Obligations.RateCheckIsOnTheExactValue : Prop :=
  ∀ p : F64, rateOk p = true ↔
    p.toNat / 2 ^ 52 % 2 ^ 11 ≠ 2047 ∧ 0 < binary64Value p ∧ binary64Value p ≤ 1

/-- Sizing against the formula of 41_filter R70: both counts lie between the ceilings of the formula's real value less
and plus a relative `2^-39` (the model's margin, log 7); so they are the reference values unless an integer lies that
close. -/
def Obligations.SizingBracketsTheFormula : Prop :=
  ∀ (n : Word) (p : F64), n ≠ 0 → rateOk p = true →
    ⌈slotCountReal n p * (1 - 2 ^ (-39 : ℤ))⌉ ≤ (sizingM n p : ℤ) ∧
    (sizingM n p : ℤ) ≤ ⌈slotCountReal n p * (1 + 2 ^ (-39 : ℤ))⌉ ∧
    ⌈hashCountReal n (sizingM n p) * (1 - 2 ^ (-39 : ℤ))⌉ ≤ (sizingK n p : ℤ) ∧
    (sizingK n p : ℤ) ≤ ⌈hashCountReal n (sizingM n p) * (1 + 2 ^ (-39 : ℤ))⌉

/-- The reference values of 41_filter R70 are always among the results the model allows (log 6). -/
def Obligations.SizingAllowsTheReference : Prop :=
  ∀ (n : Word) (p : F64) (m : Nat), n ≠ 0 → rateOk p = true →
    (slotCountLower n.toNat p : ℤ) ≤ ⌈slotCountReal n p⌉ ∧
    ⌈slotCountReal n p⌉ ≤ (slotCountUpper n.toNat p : ℤ) ∧
    (hashCountLower n.toNat m : ℤ) ≤ ⌈hashCountReal n m⌉ ∧
    ⌈hashCountReal n m⌉ ≤ (hashCountUpper n.toNat m : ℤ)

/-- The worked example of 41_filter R70 and rows V-S2, V-S5, V-S7, V-S8 and V-S11 of 95_test_vectors, where the real
value is far from an integer: the model's sizes are the spec's, whatever the free values are. -/
def Obligations.SizingOfTheWorkedExamples : Prop :=
  (sizingM 3 0x3F847AE147AE147B = 29 ∧ sizingK 3 0x3F847AE147AE147B = 7) ∧
  (sizingM 1 0x3FE0000000000000 = 2 ∧ sizingK 1 0x3FE0000000000000 = 2) ∧
  (sizingM 1000 0x3F50624DD2F1A9FC = 14378 ∧ sizingK 1000 0x3F50624DD2F1A9FC = 10) ∧
  (sizingM 1 0x3E112E0BE826D695 = 44 ∧ sizingK 1 0x3E112E0BE826D695 = 31) ∧
  (sizingM 5 0x3FECCCCCCCCCCCCD = 2 ∧ sizingK 5 0x3FECCCCCCCCCCCCD = 1) ∧
  sizingM 4294967295 0x3FE0000000000000 = 6196328018

/-- The properties that 41_filter R70 derives: `p = 1` sizes to nothing, a rate below 1 to at least one slot and one
hash; and the hash count of a filter that fits is a 32-bit number (R75). -/
def Obligations.SizingIsPositiveBelowRateOne : Prop :=
  ∀ (n : Word) (p : F64), n ≠ 0 → rateOk p = true →
    (p = 0x3FF0000000000000 → sizingM n p = 0) ∧
    (p ≠ 0x3FF0000000000000 → 1 ≤ sizingM n p ∧ 1 ≤ sizingK n p) ∧
    (sizingM n p ≤ Config.mMax → sizingK n p < 2 ^ 32)

/-- 41_filter R75 (with R71, R19 and the order of 60_exceptions R117): `SBF_INIT`, its errors in their order and its
effect. -/
def Obligations.SbfInitFollowsItsRule : Prop :=
  ∀ (n : Word) (p : F64) (w : Byte) (s : State),
    (¬ (1 ≤ w.toNat ∧ w.toNat ≤ 31) →
      exec (.sbfInit n p w) s = .next { s with responses := s.responses ++ [[0x01]] }) ∧
    (1 ≤ w.toNat → w.toNat ≤ 31 → rateOk p = false →
      exec (.sbfInit n p w) s = .next { s with responses := s.responses ++ [[0x01]] }) ∧
    (1 ≤ w.toNat → w.toNat ≤ 31 → rateOk p = true → n = 0 →
      exec (.sbfInit n p w) s = .next { s with responses := s.responses ++ [[0x02]] }) ∧
    (1 ≤ w.toNat → w.toNat ≤ 31 → rateOk p = true → n ≠ 0 →
      (sizingM n p = 0 ∨ Config.mMax < sizingM n p) →
      exec (.sbfInit n p w) s = .next { s with responses := s.responses ++ [[0x01]] }) ∧
    (1 ≤ w.toNat → w.toNat ≤ 31 → rateOk p = true → n ≠ 0 → 1 ≤ sizingM n p → sizingM n p ≤ Config.mMax →
      ∃ t, exec (.sbfInit n p w) s = .next t ∧ t.phase = .build ∧ t.w.toNat = w.toNat ∧
        t.k.toNat = sizingK n p ∧ t.m.toNat = sizingM n p ∧
        (∀ j < sizingM n p, t.slot j = 0) ∧ (∀ j, sizingM n p ≤ j → t.slot j = s.slot j) ∧
        t.resets = s.resets ∧ t.inbox = s.inbox ∧
        t.responses = s.responses ++ [0x00 :: (u32Bytes t.m ++ u32Bytes t.k)])

/-- 60_exceptions R112 (c): the rate 1 passes the rate check and sizes to `m = 0`, which is rejected. -/
def Obligations.RateOneIsInvalidParameter : Prop :=
  ∀ (n : Word) (w : Byte) (s : State), n ≠ 0 → 1 ≤ w.toNat → w.toNat ≤ 31 →
    rateOk 0x3FF0000000000000 = true ∧
      exec (.sbfInit n 0x3FF0000000000000 w) s = .next { s with responses := s.responses ++ [[0x01]] }

/-- 41_filter R76: `SBF_CFG`, its error and its effect. -/
def Obligations.SbfCfgFollowsItsRule : Prop :=
  ∀ (m k : Word) (w : Byte) (s : State),
    (¬ (1 ≤ w.toNat ∧ w.toNat ≤ 31) ∨ m = 0 ∨ Config.mMax < m.toNat ∨ k = 0 →
      exec (.sbfCfg m k w) s = .next { s with responses := s.responses ++ [[0x01]] }) ∧
    (1 ≤ w.toNat → w.toNat ≤ 31 → m ≠ 0 → m.toNat ≤ Config.mMax → k ≠ 0 →
      ∃ t, exec (.sbfCfg m k w) s = .next t ∧ t.phase = .build ∧ t.w.toNat = w.toNat ∧ t.k = k ∧ t.m = m ∧
        (∀ j < m.toNat, t.slot j = 0) ∧ (∀ j, m.toNat ≤ j → t.slot j = s.slot j) ∧
        t.resets = s.resets ∧ t.inbox = s.inbox ∧ t.responses = s.responses ++ [[0x00]])

/-- 20_memory R34: `SBF_INIT` and `SBF_CFG` are idempotent in their effect on state. -/
def Obligations.ConfiguringTwiceIsConfiguringOnce : Prop :=
  ∀ (i : Instr) (s t : State), ((∃ n p w, i = .sbfInit n p w) ∨ (∃ m k w, i = .sbfCfg m k w)) →
    exec i s = .next t → ∃ u, exec i t = .next u ∧ t.SameBlock u

/-- 41_filter R77, R89 with R72, R73: `SBF_INSERT`. In `BUILD` every candidate slot becomes the larger of its value
and the saturated sum, no other slot and no register changes; in another phase it answers `WrongPhase`. -/
def Obligations.SbfInsertFollowsItsRule : Prop :=
  ∀ (freq : Word) (key : Key) (s : State),
    (s.phase ≠ .build →
      exec (.sbfInsert freq key) s = .next { s with responses := s.responses ++ [[0x04]] }) ∧
    (s.Inv → s.phase = .build →
      ∃ t mn, exec (.sbfInsert freq key) s = .next t ∧ IsLeastCandidate s key mn ∧
        (∀ j, IsCandidate s key j →
          (t.slot j).toNat = max (s.slot j).toNat (min (mn + freq.toNat) (2 ^ s.w.toNat - 1))) ∧
        (∀ j, ¬ IsCandidate s key j → t.slot j = s.slot j) ∧
        t.phase = s.phase ∧ t.w = s.w ∧ t.k = s.k ∧ t.m = s.m ∧ t.resets = s.resets ∧ t.inbox = s.inbox ∧
        t.responses = s.responses ++ [[0x00]])

/-- 41_filter R77 (c): an insertion with frequency 0 changes no slot, whenever it answers; and it leaves the whole
state as it was but for its response, OK in `BUILD` and `WrongPhase` in another phase. -/
def Obligations.ZeroFrequencyChangesNothing : Prop :=
  ∀ (key : Key) (s : State),
    (∀ t, exec (.sbfInsert 0 key) s = .next t → ∀ j, t.slot j = s.slot j) ∧
    (s.Inv → s.phase = .build →
      exec (.sbfInsert 0 key) s = .next { s with responses := s.responses ++ [[0x00]] }) ∧
    (s.phase ≠ .build →
      exec (.sbfInsert 0 key) s = .next { s with responses := s.responses ++ [[0x04]] })

/-- 41_filter R72: all the candidates of the empty key are slot 0. -/
def Obligations.EmptyKeyTouchesOnlySlotZero : Prop :=
  ∀ (freq : Word) (s t : State), exec (.sbfInsert freq []) s = .next t →
    ∀ j, j ≠ 0 → t.slot j = s.slot j

/-- 20_memory R27: every slot index a command forms is in range. -/
def Obligations.CandidateIndexIsInRange : Prop :=
  ∀ (s : State) (key : Key), s.Inv → s.phase ≠ .idle →
    (s.candidates key).length = s.k.toNat ∧ ∀ j ∈ s.candidates key, j < s.m.toNat

/-- 41_filter R78: `SBF_SEAL`. -/
def Obligations.SbfSealFollowsItsRule : Prop :=
  ∀ s : State,
    (s.phase = .build → exec .sbfSeal s =
      .next { s with phase := .sealed, responses := s.responses ++ [[0x00]] }) ∧
    (s.phase ≠ .build → exec .sbfSeal s = .next { s with responses := s.responses ++ [[0x04]] })

/-! ## Reading a filter -/

/-- 41_filter R79: `SBF_QUERY` answers the minimum of the candidate slots as a `u32` and changes nothing else. -/
def Obligations.SbfQueryFollowsItsRule : Prop :=
  ∀ (key : Key) (s : State),
    (s.phase ≠ .sealed → exec (.sbfQuery key) s = .next { s with responses := s.responses ++ [[0x04]] }) ∧
    (s.Inv → s.phase = .sealed →
      ∃ mn, IsLeastCandidate s key mn ∧ mn ≤ 2 ^ s.w.toNat - 1 ∧
        exec (.sbfQuery key) s =
          .next { s with responses := s.responses ++ [0x00 :: u32Bytes (BitVec.ofNat 32 mn)] })

/-- 41_filter R80: `SBF_INFO` answers `K`, `W` zero-extended and `M`, in that order. -/
def Obligations.SbfInfoFollowsItsRule : Prop :=
  ∀ s : State,
    (s.phase ≠ .sealed → exec .sbfInfo s = .next { s with responses := s.responses ++ [[0x04]] }) ∧
    (s.phase = .sealed → exec .sbfInfo s = .next { s with responses := s.responses ++
      [0x00 :: (u32Bytes s.k ++ (s.w.setWidth 8 :: [0, 0, 0]) ++ u32Bytes s.m)] })

/-- 41_filter R81, R82: `SBF_EXPORT` answers `M·W` bits, of which bit `q` is bit `W − 1 − (q mod W)` of slot
`q div W`. -/
def Obligations.SbfExportFollowsItsRule : Prop :=
  ∀ s : State,
    (s.phase ≠ .sealed → exec .sbfExport s = .next { s with responses := s.responses ++ [[0x04]] }) ∧
    (s.Inv → s.phase = .sealed →
      ∃ bits : Bits, exec .sbfExport s =
          .next { s with responses := s.responses ++ [0x00 :: bitsField bits] } ∧
        bits.length = s.m.toNat * s.w.toNat ∧ bits.length < 2 ^ 32 ∧
        ∀ q < s.m.toNat * s.w.toNat,
          bits.getD q false = (s.slot (q / s.w.toNat)).getLsbD (s.w.toNat - 1 - q % s.w.toNat))

/-- 41_filter R74, 60_exceptions R115: the phase discipline. A filter command in a phase it does not allow answers
`WrongPhase` whatever its operands; `SBF_INIT` and `SBF_CFG` never do. -/
def Obligations.PhaseDisciplineOfFilterCommands : Prop :=
  ∀ s : State,
    (s.phase ≠ .build → ∀ freq key, ∀ i ∈ [Instr.sbfInsert freq key, .sbfSeal],
      exec i s = .next { s with responses := s.responses ++ [[0x04]] }) ∧
    (s.phase ≠ .sealed → ∀ key, ∀ i ∈ [Instr.sbfQuery key, .sbfInfo, .sbfExport],
      exec i s = .next { s with responses := s.responses ++ [[0x04]] }) ∧
    (∀ n p w m k, ∀ i ∈ [Instr.sbfInit n p w, .sbfCfg m k w], ∀ t,
      exec i s = .next t → t.responses ≠ s.responses ++ [[0x04]])

/-- 60_exceptions R123: the commands that cannot fail on a well-formed packet. -/
def Obligations.CommandsThatCannotFail : Prop :=
  ∀ s : State, s.Inv →
    (∀ seed key bits, ∀ i ∈ [Instr.hash seed key, .b15Enc bits],
      ∃ t fields, exec i s = .next t ∧ t.responses = s.responses ++ [0x00 :: fields]) ∧
    (s.phase = .build → ∀ freq key, ∀ i ∈ [Instr.sbfInsert freq key, .sbfSeal],
      ∃ t fields, exec i s = .next t ∧ t.responses = s.responses ++ [0x00 :: fields]) ∧
    (s.phase = .sealed → ∀ key, ∀ i ∈ [Instr.sbfQuery key, .sbfInfo, .sbfExport],
      ∃ t fields, exec i s = .next t ∧ t.responses = s.responses ++ [0x00 :: fields])

/-! ## Laws of the filter -/

/-- 41_filter R83: after any insertions into a fresh filter, the sealed filter's query of a key answers at least its
total frequency, capped. -/
def Obligations.NoUndershoot : Prop :=
  ∀ (s : State) (pairs : List (Key × Word)) (key : Key), FreshFilter s →
    ∃ t f, runCommands (insertions pairs ++ [.sbfSeal, .sbfQuery key]) s = .next t ∧
      t.responses.getLast? = some (0x00 :: u32Bytes (BitVec.ofNat 32 f)) ∧
      min (totalFrequency pairs key) (2 ^ s.w.toNat - 1) ≤ f ∧ f ≤ 2 ^ s.w.toNat - 1

/-- The step of 41_filter R83: if every candidate slot of `x` holds at least `min(F, cap)`, then after one insertion of any
key each still holds at least the floor of the total, which grows by the frequency if the key is `x`; and no other
command but `SBF_INIT` and `SBF_CFG` lowers it. -/
def Obligations.InsertionKeepsTheFloor : Prop :=
  ∀ (s : State) (x : Key) (F : Nat), s.Inv → HoldsFloor s x F →
    (s.phase = .build → ∀ (freq : Word) (key : Key),
      ∃ t, exec (.sbfInsert freq key) s = .next t ∧ t.responses = s.responses ++ [[0x00]] ∧
        HoldsFloor t x (F + if key = x then freq.toNat else 0)) ∧
    (∀ (i : Instr) (t : State), (∀ n p w, i ≠ .sbfInit n p w) → (∀ m k w, i ≠ .sbfCfg m k w) →
      exec i s = .next t → HoldsFloor t x F)

/-- 41_filter R84: a key inserted with total frequency at least 1 is never reported as 0. -/
def Obligations.NoFalseNegative : Prop :=
  ∀ (s : State) (pairs : List (Key × Word)) (key : Key), FreshFilter s → 1 ≤ totalFrequency pairs key →
    ∃ t f, runCommands (insertions pairs ++ [.sbfSeal, .sbfQuery key]) s = .next t ∧
      t.responses.getLast? = some (0x00 :: u32Bytes (BitVec.ofNat 32 f)) ∧ 0 < f ∧ f < 2 ^ 31

/-- 41_filter R85: a key whose total frequency reaches the cap is reported as exactly the cap. -/
def Obligations.SaturationIsExact : Prop :=
  ∀ (s : State) (pairs : List (Key × Word)) (key : Key), FreshFilter s →
    2 ^ s.w.toNat - 1 ≤ totalFrequency pairs key →
    ∃ t, runCommands (insertions pairs ++ [.sbfSeal, .sbfQuery key]) s = .next t ∧
      t.responses.getLast? = some (0x00 :: u32Bytes (BitVec.ofNat 32 (2 ^ s.w.toNat - 1)))

/-- 41_filter R87: `f` unit insertions of a key with no other insertion between them leave the same slots as one
insertion of frequency `f`. -/
def Obligations.UnitInsertionsEqualOneBatch : Prop :=
  ∀ (s : State) (f : Word) (key : Key), s.Inv → s.phase = .build →
    ∃ t u, runCommands (List.replicate f.toNat (sbfInc key)) s = .next t ∧
      exec (.sbfInsert f key) s = .next u ∧ ∀ j, t.slot j = u.slot j

/-- 41_filter R86: the order of insertions matters for the array (the example of `"a"` and `"d"` on two slots). -/
def Obligations.InsertionOrderMatters : Prop :=
  ∀ s : State, s.phase = .build → s.w = 4 → s.k = 2 → s.m = 2 → s.slots = [(0, 0), (1, 0)] →
    (∃ t, runCommands (insertions [([0x61], 1), ([0x64], 1)]) s = .next t ∧ t.slots = [(0, 1), (1, 1)]) ∧
    (∃ t, runCommands (insertions [([0x64], 1), ([0x61], 1)]) s = .next t ∧ t.slots = [(0, 2), (1, 1)])

/-- 41_filter R88, 30_encoding R55: `SBF_BUILD` either builds and seals a filter, answering OK throughout, or leaves
the block as it was and answers one error. The host-side sequence is the model's reading (log 11). -/
def Obligations.ConstructionSucceedsOrChangesNothing : Prop :=
  ∀ (s : State) (pairs : List (Key × Word)) (p : F64) (w : Byte), s.Inv →
    ∃ t, sbfBuild pairs p w s = .next t ∧ t.Inv ∧ t.inbox = s.inbox ∧
      ((t.phase = .sealed ∧ t.w.toNat = w.toNat ∧
          t.responses = s.responses ++
            [0x00 :: (u32Bytes t.m ++ u32Bytes t.k)] ++ List.replicate (pairs.length + 1) [0x00]) ∨
        (s.SameBlock t ∧ ∃ c : Byte, (c = 0x01 ∨ c = 0x02) ∧ t.responses = s.responses ++ [[c]]))

/-! ## The codec -/

/-- 42_codec R99 with R95 to R98: `B15_ENC` answers the text of the pseudocode in every phase and changes nothing
else. -/
def Obligations.B15EncFollowsItsRule : Prop :=
  ∀ (bits : Bits) (s : State),
    exec (.b15Enc bits) s =
      .next { s with responses := s.responses ++ [0x00 :: textField (textByRule bits)] }

/-- 42_codec R102, R101; 60_exceptions R114: `B15_DEC` answers `DecodeError` for its four causes, and otherwise the
bits of the data characters less the padding; it changes nothing else. -/
def Obligations.B15DecFollowsItsRule : Prop :=
  ∀ (text : Text) (s : State),
    (IsUndecodable text → exec (.b15Dec text) s = .next { s with responses := s.responses ++ [[0x03]] }) ∧
    (¬ IsUndecodable text →
      ∃ header rest pad, ∃ bits : Bits, text = header :: rest ∧ IsHexVal header pad ∧
        exec (.b15Dec text) s =
          .next { s with responses := s.responses ++ [0x00 :: bitsField bits] } ∧
        bits.length + pad = 15 * rest.length ∧
        ∀ i < bits.length,
          bits.getD i false = (rest.getD (i / 15) 0 - 161).getLsbD (14 - i % 15))

/-- 42_codec R103: decoding undoes encoding, through the commands and through the packets. -/
def Obligations.CodecRoundTrip : Prop :=
  ∀ (bits : Bits) (s : State), bits.length < 2 ^ 32 →
    ∃ t text, exec (.b15Enc bits) s = .next t ∧
      t.responses = s.responses ++ [0x00 :: textField text] ∧
      decode (0x21 :: textField text) = .ok (.b15Dec text) ∧
      exec (.b15Dec text) t = .next { t with responses := t.responses ++ [0x00 :: bitsField bits] }

/-- 42_codec R104, R105: the text `B15_ENC` answers for `L` bits has `1 + ceil(L/15)` characters, a header in one of
its two ranges and data characters in theirs, none in the surrogate band. -/
def Obligations.TextLengthAndSurrogateSafety : Prop :=
  ∀ (bits : Bits) (s : State), bits.length < 2 ^ 32 →
    ∃ t header rest, exec (.b15Enc bits) s = .next t ∧
      t.responses = s.responses ++ [0x00 :: textField (header :: rest)] ∧
      (header :: rest).length = 1 + (bits.length + 14) / 15 ∧
      ((0x30 ≤ header.toNat ∧ header.toNat ≤ 0x39) ∨ (0x61 ≤ header.toNat ∧ header.toNat ≤ 0x65)) ∧
      (∀ c ∈ rest, 0x00A1 ≤ c.toNat ∧ c.toNat ≤ 0x80A0) ∧
      ∀ c ∈ header :: rest, ¬ (0xD800 ≤ c.toNat ∧ c.toNat ≤ 0xDFFF)

/-- 42_codec R106: the bits that decoding drops are not examined: texts that differ only in them decode alike. -/
def Obligations.DroppedPaddingIsNotExamined : Prop :=
  ∀ (header c c' : CodeUnit) (rest : Text) (pad : Nat) (s : State), IsHexVal header pad →
    161 ≤ c.toNat → c.toNat ≤ 32928 → 161 ≤ c'.toNat → c'.toNat ≤ 32928 →
    (c.toNat - 161) / 2 ^ pad = (c'.toNat - 161) / 2 ^ pad →
    exec (.b15Dec (header :: (rest ++ [c]))) s = exec (.b15Dec (header :: (rest ++ [c']))) s

/-- 42_codec R104, 30_encoding R55: the text of an exported filter has `1 + ceil(size·width/15)` characters. -/
def Obligations.ExportTextLength : Prop :=
  ∀ s : State, s.Inv → s.phase = .sealed →
    ∃ t text, sbfExportText s = .next t ∧ s.SameBlock t ∧
      t.responses.getLast? = some (0x00 :: textField text) ∧
      text.length = 1 + (s.m.toNat * s.w.toNat + 14) / 15

/-! ## Rules of the whole machine -/

/-- 60_exceptions R111: a command that answers an error has changed no state, and its response is one byte. -/
def Obligations.ErrorsLeaveTheStateUnchanged : Prop :=
  ∀ (i : Instr) (s t : State) (status : Byte) (fields : Packet), exec i s = .next t →
    t.responses = s.responses ++ [status :: fields] → status ≠ 0x00 →
    fields = [] ∧ t = { s with responses := s.responses ++ [[status]] }

/-- 30_encoding R40, R47; 60_exceptions R110: from every state that meets the invariant each command packet, whatever
its bytes, is answered by exactly one response: OK with fields, or one error status of the five. -/
def Obligations.EveryPacketGetsOneResponse : Prop :=
  ∀ (s : State) (p : Packet) (later : List HostEvent), s.Inv → s.inbox = .command p :: later →
    ∃ t r, step s = .next t ∧ t.inbox = later ∧ t.responses = s.responses ++ [r] ∧
      ((∃ fields, r = 0x00 :: fields) ∨
        r ∈ [[0x01], [0x02], [0x03], [0x04], ([0x05] : Packet)])

/-- 10_state R22 (a) to (c): every step keeps the invariant. -/
def Obligations.EveryStepKeepsTheInvariant : Prop :=
  ∀ s t : State, s.Inv → step s = .next t → t.Inv

/-- The invariant holds at reset. -/
def Obligations.ResetMeetsTheInvariant : Prop := State.reset.Inv

/-- "Nothing in the block is `stuck`" (93_implementation_defined): no run from a state that meets the invariant,
whatever the host issues, faults or is refused. -/
def Obligations.NoRunIsStuck : Prop := ∀ s : State, s.Inv → s.Safe

/-- 10_state R14: the transitions of `PHASE`. -/
def Obligations.PhaseTransitions : Prop :=
  ∀ (i : Instr) (s t : State), exec i s = .next t →
    t.phase = s.phase ∨
      (t.phase = .build ∧ ((∃ n p w, i = .sbfInit n p w) ∨ (∃ m k w, i = .sbfCfg m k w))) ∨
      (t.phase = .sealed ∧ s.phase = .build ∧ i = .sbfSeal)

/-- 10_state R22 (d): in `SEALED` nothing but a successful `SBF_INIT` or `SBF_CFG` changes the block. -/
def Obligations.SealedFilterIsImmutable : Prop :=
  ∀ (i : Instr) (s t : State), s.phase = .sealed → exec i s = .next t →
    s.SameBlock t ∨
      (((∃ n p w, i = .sbfInit n p w) ∨ (∃ m k w, i = .sbfCfg m k w)) ∧
        ∃ fields, t.responses = s.responses ++ [0x00 :: fields])

/-- 10_state R22 (e), 41_filter R89: no slot value decreases but by a successful `SBF_INIT` or `SBF_CFG`. -/
def Obligations.SlotsNeverDecrease : Prop :=
  ∀ (i : Instr) (s t : State), exec i s = .next t →
    (∀ n p w, i ≠ .sbfInit n p w) → (∀ m k w, i ≠ .sbfCfg m k w) →
    ∀ j, (s.slot j).toNat ≤ (t.slot j).toNat

/-- 20_memory R34, R25: reading has no side effects, and the commands that do not touch the slots leave them. -/
def Obligations.ReadsHaveNoSideEffects : Prop :=
  ∀ (i : Instr) (s t : State), exec i s = .next t →
    ((∃ seed key, i = .hash seed key) ∨ (∃ key, i = .sbfQuery key) ∨ i = .sbfInfo ∨ i = .sbfExport ∨
      (∃ bits, i = .b15Enc bits) ∨ (∃ text, i = .b15Dec text)) →
    s.SameBlock t ∧ t.inbox = s.inbox

/-- 10_state R18, R23: slots from `M` on and unspecified slot contents are never observable: states that agree on the
registers and on the slots below `M` answer every command alike, and still agree afterwards. -/
def Obligations.OtherSlotsAreUnobservable : Prop :=
  ∀ (i : Instr) (s s' t : State), s.Inv → s'.Inv → SameVisible s s' → exec i s = .next t →
    ∃ t' r, exec i s' = .next t' ∧ SameVisible t t' ∧
      t.responses = s.responses ++ [r] ∧ t'.responses = s'.responses ++ [r]

/-- 10_state R23: what a reset leaves in the slots is never observable: with other free values in the unwritten slots
(another count of resets, log 4) every command does the same, response and state. -/
def Obligations.ResetContentsAreUnobservable : Prop :=
  ∀ (i : Instr) (s t : State) (n : Nat), s.Inv → exec i s = .next t →
    exec i { s with resets := n } = .next { t with resets := n }

/-- 40_hash R67, 41_filter and 42_codec: HASH, B15_ENC and B15_DEC depend on their operands alone. -/
def Obligations.PureCommandsReadNoState : Prop :=
  ∀ i : Instr, ((∃ seed key, i = .hash seed key) ∨ (∃ bits, i = .b15Enc bits) ∨ (∃ text, i = .b15Dec text)) →
    ∃ r, ∀ s : State, exec i s = .next { s with responses := s.responses ++ [r] }
end

