-- ==== Sys2Proof/Laws/Bits.lean ====
section
/-! SUPPORT. The spec lemmas of the byte and bit conversions (00_scope R8): lengths, values and the two inverse
laws of each. -/

namespace Sys2Proof

/-! ## Little-endian numbers -/

@[simp] theorem leBytes_length (n v : Nat) : (leBytes n v).length = n := by
  induction n generalizing v with
  | zero => rfl
  | succ n ih => simp [leBytes, ih]

theorem leNat_lt (bs : List Byte) : leNat bs < 256 ^ bs.length := by
  induction bs with
  | nil => simp [leNat]
  | cons b bs ih =>
    have hb := b.isLt
    simp only [leNat, List.length_cons, pow_succ]
    omega

theorem leNat_leBytes (n v : Nat) : leNat (leBytes n v) = v % 256 ^ n := by
  induction n generalizing v with
  | zero => simp [leBytes, leNat, Nat.mod_one]
  | succ n ih =>
    simp only [leBytes, leNat, ih, BitVec.toNat_ofNat]
    rw [show 2 ^ 8 = 256 from rfl, show 256 ^ (n + 1) = 256 * 256 ^ n by ring, Nat.mod_mul]

theorem leBytes_leNat (bs : List Byte) : leBytes bs.length (leNat bs) = bs := by
  induction bs with
  | nil => rfl
  | cons b bs ih =>
    have hb : b.toNat < 256 := b.isLt
    have hdiv : (b.toNat + 256 * leNat bs) / 256 = leNat bs := by omega
    simp only [leNat, List.length_cons, leBytes, hdiv, ih, List.cons.injEq, and_true]
    apply BitVec.eq_of_toNat_eq
    simp only [BitVec.toNat_ofNat]
    omega

@[simp] theorem putU32_length (v : Word) : (putU32 v).length = 4 := leBytes_length 4 _

@[simp] theorem putF64_length (v : F64) : (putF64 v).length = 8 := leBytes_length 8 _

@[simp] theorem leNat_putU32 (v : Word) : leNat (putU32 v) = v.toNat := by
  rw [putU32, leNat_leBytes]; exact Nat.mod_eq_of_lt (by simpa using v.isLt)

@[simp] theorem leNat_putF64 (v : F64) : leNat (putF64 v) = v.toNat := by
  rw [putF64, leNat_leBytes]; exact Nat.mod_eq_of_lt (by simpa using v.isLt)

/-! ## Bit strings as numbers -/

@[simp] theorem binN_length (n v : Nat) : (binN n v).length = n := by
  induction n with
  | zero => rfl
  | succ n ih => simp [binN, ih]

theorem val_lt (s : Bits) : val s < 2 ^ s.length := by
  induction s with
  | nil => simp [val]
  | cons b s ih =>
    have hb : b.toNat ≤ 1 := Bool.toNat_le b
    simp only [val, List.length_cons, pow_succ]
    nlinarith

theorem val_append (s t : Bits) : val (s ++ t) = val s * 2 ^ t.length + val t := by
  induction s with
  | nil => simp [val]
  | cons b s ih => simp only [List.cons_append, val, ih, List.length_append, pow_add]; ring

theorem val_replicate_false (n : Nat) : val (List.replicate n false) = 0 := by
  induction n with
  | zero => rfl
  | succ n ih => simp [List.replicate_succ, val, ih]

/-- `val(bin_n(v)) = v` for `v < 2^n` (R8), and the low `n` bits in general. -/
theorem val_binN (n v : Nat) : val (binN n v) = v % 2 ^ n := by
  induction n with
  | zero => simp [binN, val, Nat.mod_one]
  | succ n ih =>
    simp only [binN, val, ih, binN_length]
    have h := Nat.mod_mul (a := 2 ^ n) (b := 2) (x := v)
    rw [← pow_succ] at h
    rw [h]
    rcases Nat.mod_two_eq_zero_or_one (v / 2 ^ n) with h0 | h1
    · simp [h0]
    · simp [h1]; omega

theorem binN_mod (n v : Nat) : binN n (v % 2 ^ n) = binN n v := by
  have key : ∀ k, k ≤ n → binN k (v % 2 ^ n) = binN k v := by
    intro k
    induction k with
    | zero => intro _; rfl
    | succ k ih =>
      intro hk
      simp only [binN, ih (by omega), List.cons.injEq, and_true, decide_eq_decide]
      have hsplit : (2 : Nat) ^ n = 2 ^ k * 2 ^ (n - k) := by rw [← pow_add]; congr 1; omega
      have h2 : (2 : Nat) ^ (n - k) = 2 * 2 ^ (n - k - 1) := by rw [← pow_succ']; congr 1; omega
      rw [hsplit, Nat.mod_mul_right_div_self, h2, Nat.mod_mul_right_mod]
  exact key n le_rfl

/-- `bin(val(s)) = s`. -/
theorem binN_val (s : Bits) : binN s.length (val s) = s := by
  induction s with
  | nil => rfl
  | cons b s ih =>
    have hs := val_lt s
    simp only [List.length_cons, binN, val, List.cons.injEq]
    refine ⟨?_, ?_⟩
    · rw [Nat.add_comm, Nat.mul_comm, Nat.add_mul_div_left _ _ (by positivity), Nat.div_eq_of_lt hs]
      cases b <;> simp
    · rw [← binN_mod, Nat.add_comm, Nat.add_mul_mod_self_right, Nat.mod_eq_of_lt hs, ih]

/-- Bit `j` of `bin_n(v)` (R8). -/
theorem binN_getElem (n v j : Nat) (h : j < (binN n v).length) :
    (binN n v)[j] = decide (v / 2 ^ (n - 1 - j) % 2 = 1) := by
  induction n generalizing j with
  | zero => simp at h
  | succ n ih =>
    cases j with
    | zero => simp [binN]
    | succ j =>
      have := ih j (by simpa [binN] using h)
      simp only [binN, List.getElem_cons_succ, this]
      rw [show n + 1 - 1 - (j + 1) = n - 1 - j by omega]

/-! ## Pieces of a list -/

@[simp] theorem chunks_length {α : Type} (c n : Nat) (s : List α) : (chunks c n s).length = n := by
  induction n generalizing s with
  | zero => rfl
  | succ n ih => simp [chunks, ih]

theorem chunks_getElem {α : Type} (c n q : Nat) (s : List α) (h : q < (chunks c n s).length) :
    (chunks c n s)[q] = (s.drop (c * q)).take c := by
  induction n generalizing q s with
  | zero => simp at h
  | succ n ih =>
    cases q with
    | zero => simp [chunks]
    | succ q =>
      have := ih q (s.drop c) (by simpa [chunks] using h)
      simp only [chunks, List.getElem_cons_succ, this, List.drop_drop]
      congr 2; ring

/-- Mapping a piecewise function over the pieces and joining: if `g` undoes `f` on full pieces, joining the pieces
of `s` gives `s` back. -/
theorem chunks_flatten {α : Type} (c n : Nat) (s : List α) (h : s.length ≤ c * n) :
    (chunks c n s).flatten = s := by
  induction n generalizing s with
  | zero =>
    have : s = [] := List.length_eq_zero_iff.mp (by omega)
    simp [chunks, this]
  | succ n ih =>
    rw [chunks, List.flatten_cons, ih _ (by rw [List.length_drop, Nat.mul_succ] at *; omega), List.take_append_drop]

theorem mem_chunks_length {α : Type} (c n : Nat) (s : List α) (h : c * n ≤ s.length) :
    ∀ g ∈ chunks c n s, g.length = c := by
  induction n generalizing s with
  | zero => simp [chunks]
  | succ n ih =>
    intro g hg
    rw [Nat.mul_succ] at h
    rw [chunks, List.mem_cons] at hg
    rcases hg with rfl | hg
    · rw [List.length_take]; omega
    · exact ih (s.drop c) (by rw [List.length_drop]; omega) g hg

theorem chunks_flatten_map {α β : Type} (c : Nat) (f : β → List α) (hf : ∀ b, (f b).length = c) (bs : List β) :
    chunks c bs.length (bs.flatMap f) = bs.map f := by
  induction bs with
  | nil => rfl
  | cons b bs ih =>
    simp only [List.length_cons, List.flatMap_cons, chunks, List.map_cons]
    rw [List.take_left' (hf b), List.drop_left' (hf b), ih]

theorem flatMap_length_const {α β : Type} (c : Nat) (f : β → List α) (hf : ∀ b, (f b).length = c) (bs : List β) :
    (bs.flatMap f).length = c * bs.length := by
  induction bs with
  | nil => simp
  | cons b bs ih => simp [hf, ih]; ring

/-! ## Payloads -/

theorem padTo_length (n : Nat) (s : Bits) (h : s.length ≤ n) : (padTo n s).length = n := by
  simp [padTo]; omega

@[simp] theorem packBits_length (s : Bits) : (packBits s).length = payloadBytes s.length := by simp [packBits]

@[simp] theorem unpackBits_length (bs : List Byte) : (unpackBits bs).length = 8 * bs.length :=
  flatMap_length_const 8 _ (fun _ => binN_length 8 _) bs

theorem byte_of_padded (g : Bits) (h : g.length ≤ 8) :
    binN 8 (BitVec.ofNat 8 (val (padTo 8 g))).toNat = padTo 8 g := by
  have hl := padTo_length 8 g h
  have hb := binN_val (padTo 8 g)
  rw [hl] at hb
  rw [BitVec.toNat_ofNat, binN_mod, hb]

/-- A bit string comes back from its payload, with the spare bits zero (R44). -/
theorem unpack_pack (s : Bits) : unpackBits (packBits s) = padTo (8 * payloadBytes s.length) s := by
  have key : ∀ n (s : Bits), s.length ≤ 8 * n → 8 * n < s.length + 8 →
      ((chunks 8 n s).map fun g => BitVec.ofNat 8 (val (padTo 8 g))).flatMap (fun b => binN 8 b.toNat)
        = padTo (8 * n) s := by
    intro n
    induction n with
    | zero =>
      intro s hs _
      have : s = [] := List.length_eq_zero_iff.mp (by omega)
      simp [chunks, padTo, this]
    | succ n ih =>
      intro s hs hs'
      rw [chunks, List.map_cons, List.flatMap_cons, byte_of_padded _ (by rw [List.length_take]; omega)]
      by_cases h8 : 8 ≤ s.length
      · rw [ih (s.drop 8) (by rw [List.length_drop]; omega) (by rw [List.length_drop]; omega)]
        have ht : padTo 8 (s.take 8) = s.take 8 := by
          simp [padTo, List.length_take, Nat.min_eq_left h8]
        rw [ht, padTo, padTo, ← List.append_assoc, List.take_append_drop, List.length_drop]
        congr 2; omega
      · have hn : n = 0 := by omega
        subst hn
        simp [chunks, List.take_of_length_le (Nat.le_of_lt (Nat.lt_of_not_le h8))]
  have h1 : s.length ≤ 8 * payloadBytes s.length := by unfold payloadBytes; omega
  have h2 : 8 * payloadBytes s.length < s.length + 8 := by unfold payloadBytes; omega
  exact key _ s h1 h2

theorem take_unpack_pack (s : Bits) : (unpackBits (packBits s)).take s.length = s := by
  rw [unpack_pack, padTo, List.take_left']; rfl

/-- The code units of a text come back from their bytes (R46). -/
theorem unitsOf_bytes (t : Text) : unitsOf t.length (t.flatMap fun c => leBytes 2 c.toNat) = t := by
  rw [unitsOf, chunks_flatten_map 2 _ (fun c => leBytes_length 2 _)]
  rw [List.map_map]
  conv_rhs => rw [← List.map_id t]
  apply List.map_congr_left
  intro c _
  apply BitVec.eq_of_toNat_eq
  have := c.isLt
  simp only [Function.comp_apply, leNat_leBytes, BitVec.toNat_ofNat, id]
  omega

end Sys2Proof
end

