-- ==== Sys2Proof/Laws/Codec.lean ====
section
/-! SUPPORT. The spec lemmas of the codec's parts: the padding length, the header and data characters. -/

namespace Sys2Proof.Machine

theorem padLength_lt (l : Nat) : padLength l < 15 := Nat.mod_lt _ (by decide)

/-- Padding reaches the next multiple of 15 (42_codec R95). -/
theorem length_add_padLength (l : Nat) : 15 * ((l + padLength l) / 15) = l + padLength l := by
  unfold padLength; omega

/-- The number of groups is `ceil(l/15)` (42_codec R95). -/
theorem groups_eq (l : Nat) : (l + padLength l) / 15 = (l + 14) / 15 := by
  unfold padLength; omega

/-- The header's inverse (42_codec R98). -/
theorem hexVal_headerChar {pad : Nat} (h : pad < 15) : hexVal (headerChar pad) = some pad := by
  interval_cases pad <;> decide

theorem headerChar_toNat {pad : Nat} (h : pad < 15) :
    (headerChar pad).toNat = if pad < 10 then 0x30 + pad else 0x61 + (pad - 10) := by
  interval_cases pad <;> decide

/-- A data character is the group's value plus 161, and at most 32928 (42_codec R97). -/
theorem dataChar_toNat {g : Bits} (h : g.length = 15) : (dataChar g).toNat = val g + 161 := by
  have hv := val_lt g
  rw [h] at hv
  rw [dataChar, BitVec.toNat_ofNat, Nat.mod_eq_of_lt]
  omega

theorem isDataChar_dataChar {g : Bits} (h : g.length = 15) : isDataChar (dataChar g) = true := by
  have hv := val_lt g
  rw [h] at hv
  rw [isDataChar, dataChar_toNat h]
  simp only [Bool.and_eq_true, decide_eq_true_eq]
  omega

/-- The group comes back from its data character. -/
theorem group_of_dataChar {g : Bits} (h : g.length = 15) : binN 15 ((dataChar g).toNat - 161) = g := by
  rw [dataChar_toNat h, Nat.add_sub_cancel]
  have := binN_val g
  rwa [h] at this

/-- The groups of the padded string, all of 15 bits, which join to it (42_codec R96). -/
theorem paddedGroups (s : Bits) :
    (∀ g ∈ chunks 15 ((s.length + padLength s.length) / 15) (s ++ List.replicate (padLength s.length) false),
        g.length = 15) ∧
      (chunks 15 ((s.length + padLength s.length) / 15)
        (s ++ List.replicate (padLength s.length) false)).flatten =
          s ++ List.replicate (padLength s.length) false := by
  have h := length_add_padLength s.length
  constructor
  · exact mem_chunks_length _ _ _ (by simp [h])
  · exact chunks_flatten _ _ _ (by simp [h])

theorem b15Encode_length (s : Bits) : (b15Encode s).length = 1 + (s.length + 14) / 15 := by
  simp [b15Encode, groups_eq]; omega

/-- Everything a successful decoding of a text says (42_codec R102). -/
theorem b15Decode_some {t : Text} {s : Bits} (h : b15Decode t = some s) :
    ∃ header rest pad, t = header :: rest ∧ hexVal header = some pad ∧ (∀ c ∈ rest, isDataChar c = true) ∧
      pad ≤ 15 * rest.length ∧
      s = (rest.flatMap fun c => binN 15 (c.toNat - 161)).take (15 * rest.length - pad) := by
  cases t with
  | nil => cases h
  | cons header rest =>
    simp only [b15Decode] at h
    split at h
    · cases h
    · rename_i pad hpad
      split at h
      · cases h
      · split at h
        · cases h
        · rename_i hall hle
          injection h with h
          simp only [Bool.not_eq_true', Bool.not_eq_false, List.all_eq_true] at hall
          exact ⟨header, rest, pad, rfl, hpad, hall, Nat.le_of_not_lt hle, h.symm⟩

end Sys2Proof.Machine
end

