-- ==== Sys2Proof/Laws/Decode.lean ====
section
/-! SUPPORT. The spec lemmas of the field readers: each reads back what its writer wrote, and what it reads is what
was written. -/

namespace Sys2Proof

/-! ## The opcode map -/

/-- No two opcodes share a byte, and each byte of the map selects its own opcode (30_encoding R49, R52). -/
@[simp] theorem Opcode.ofByte_code (o : Opcode) : Opcode.ofByte o.code = some o := by
  cases o <;> decide

theorem Opcode.ofByte_eq_some {b : Byte} {o : Opcode} (h : Opcode.ofByte b = some o) : b = o.code := by
  have := List.find?_some h
  simpa using (beq_iff_eq.mp this).symm

/-! ## Reading what was written -/

theorem takeBytes_append (f rest : List Byte) : takeBytes f.length (f ++ rest) = .ok (f, rest) := by
  simp [takeBytes]

theorem takeBytes_append' {n : Nat} (f rest : List Byte) (h : f.length = n) :
    takeBytes n (f ++ rest) = .ok (f, rest) := h ▸ takeBytes_append f rest

@[simp] theorem takeU32_put (v : Word) (rest : Packet) : takeU32 (putU32 v ++ rest) = .ok (v, rest) := by
  simp [takeU32, takeBytes_append' _ _ (putU32_length v)]

@[simp] theorem takeF64_put (v : F64) (rest : Packet) : takeF64 (putF64 v ++ rest) = .ok (v, rest) := by
  simp [takeF64, takeBytes_append' _ _ (putF64_length v)]

theorem takeKey_put (key : Key) (rest : Packet) (h : key.length < 2 ^ 32) :
    takeKey (putKey key ++ rest) = .ok (key, rest) := by
  have hn : (BitVec.ofNat 32 key.length).toNat = key.length := by
    rw [BitVec.toNat_ofNat, Nat.mod_eq_of_lt h]
  simp only [takeKey, putKey, List.append_assoc, takeU32_put, hn, takeBytes_append]

theorem takeBits_put (s : Bits) (rest : Packet) (h : s.length < 2 ^ 32) :
    takeBits (putBits s ++ rest) = .ok (s, rest) := by
  have hn : (BitVec.ofNat 32 s.length).toNat = s.length := by
    rw [BitVec.toNat_ofNat, Nat.mod_eq_of_lt h]
  simp only [takeBits, putBits, List.append_assoc, takeU32_put, hn,
    takeBytes_append' _ _ (packBits_length s), take_unpack_pack]

theorem takeText_put (t : Text) (rest : Packet) (h : t.length ≤ maxTextLength) :
    takeText (putText t ++ rest) = .ok (t, rest) := by
  have h32 : t.length < 2 ^ 32 := by unfold maxTextLength at h; omega
  have hn : (BitVec.ofNat 32 t.length).toNat = t.length := by
    rw [BitVec.toNat_ofNat, Nat.mod_eq_of_lt h32]
  have hlen : (t.flatMap fun c => leBytes 2 c.toNat).length = 2 * t.length :=
    flatMap_length_const 2 _ (fun c => leBytes_length 2 _) t
  simp only [takeText, putText, List.append_assoc, takeU32_put, hn, takeBytes_append' _ _ hlen, unitsOf_bytes,
    if_neg (Nat.not_lt.mpr h)]

/-! ## What was read -/

theorem takeBytes_ok {n : Nat} {bs f rest : List Byte} (h : takeBytes n bs = .ok (f, rest)) :
    bs = f ++ rest ∧ f.length = n := by
  unfold takeBytes at h
  split at h
  · rename_i hn
    injection h with h
    injection h with h1 h2
    subst h1 h2
    exact ⟨(List.take_append_drop n bs).symm, by simpa using hn⟩
  · cases h

theorem takeU8_ok {bs : Packet} {b : Byte} {rest : Packet} (h : takeU8 bs = .ok (b, rest)) : bs = b :: rest := by
  cases bs with
  | nil => cases h
  | cons a bs =>
    injection h with h
    injection h with h1 h2
    rw [h1, h2]

theorem putU32_leNat {f : List Byte} (h : f.length = 4) : putU32 (BitVec.ofNat 32 (leNat f)) = f := by
  have hlt : leNat f < 2 ^ 32 := by have := leNat_lt f; rw [h] at this; simpa using this
  rw [putU32, BitVec.toNat_ofNat, Nat.mod_eq_of_lt hlt, ← h, leBytes_leNat]

theorem putF64_leNat {f : List Byte} (h : f.length = 8) : putF64 (BitVec.ofNat 64 (leNat f)) = f := by
  have hlt : leNat f < 2 ^ 64 := by have := leNat_lt f; rw [h] at this; simpa using this
  rw [putF64, BitVec.toNat_ofNat, Nat.mod_eq_of_lt hlt, ← h, leBytes_leNat]

theorem takeU32_ok {bs : Packet} {v : Word} {rest : Packet} (h : takeU32 bs = .ok (v, rest)) :
    bs = putU32 v ++ rest := by
  unfold takeU32 at h
  split at h
  · rename_i f r hf
    obtain ⟨rfl, hlen⟩ := takeBytes_ok hf
    injection h with h
    injection h with h1 h2
    rw [← h1, ← h2, putU32_leNat hlen]
  · cases h

theorem takeF64_ok {bs : Packet} {v : F64} {rest : Packet} (h : takeF64 bs = .ok (v, rest)) :
    bs = putF64 v ++ rest := by
  unfold takeF64 at h
  split at h
  · rename_i f r hf
    obtain ⟨rfl, hlen⟩ := takeBytes_ok hf
    injection h with h
    injection h with h1 h2
    rw [← h1, ← h2, putF64_leNat hlen]
  · cases h

theorem takeKey_ok {bs : Packet} {key : Key} {rest : Packet} (h : takeKey bs = .ok (key, rest)) :
    bs = putKey key ++ rest ∧ key.length < 2 ^ 32 := by
  unfold takeKey at h
  split at h
  · rename_i n r hn
    obtain ⟨rfl, hlen⟩ := takeBytes_ok h
    rw [takeU32_ok hn, putKey, hlen]
    exact ⟨by simp, n.isLt⟩
  · cases h

/-- The bits read from a `bits` field, and the bytes they were read from. -/
theorem takeBits_ok {bs : Packet} {s : Bits} {rest : Packet} (h : takeBits bs = .ok (s, rest)) :
    s.length < 2 ^ 32 ∧ ∃ f : List Byte, f.length = payloadBytes s.length ∧
      bs = putU32 (BitVec.ofNat 32 s.length) ++ f ++ rest ∧ s = (unpackBits f).take s.length := by
  unfold takeBits at h
  split at h
  · rename_i l r hl
    split at h
    · rename_i f r' hf
      obtain ⟨rfl, hlen⟩ := takeBytes_ok hf
      injection h with h
      injection h with h1 h2
      subst h1 h2
      have hs : ((unpackBits f).take l.toNat).length = l.toNat := by
        rw [List.length_take, unpackBits_length, hlen, payloadBytes]; omega
      rw [hs]
      exact ⟨l.isLt, f, hlen, by rw [takeU32_ok hl]; simp, rfl⟩
    · cases h
  · cases h

theorem leBytes_flatMap_units {c : Nat} {f : List Byte} (h : f.length = 2 * c) :
    (unitsOf c f).flatMap (fun u => leBytes 2 u.toNat) = f := by
  rw [unitsOf, List.flatMap_map]
  have hmem := mem_chunks_length 2 c f (by omega)
  have hflat := chunks_flatten 2 c f (by omega)
  conv_rhs => rw [← hflat]
  rw [List.flatMap_def]
  congr 1
  conv_rhs => rw [← List.map_id (chunks 2 c f)]
  apply List.map_congr_left
  intro g hg
  have hg2 := hmem g hg
  have hlt : leNat g < 2 ^ 16 := by have := leNat_lt g; rw [hg2] at this; simpa using this
  simp only [BitVec.toNat_ofNat, Nat.mod_eq_of_lt hlt, id]
  rw [← hg2, leBytes_leNat]

@[simp] theorem unitsOf_length (c : Nat) (f : List Byte) : (unitsOf c f).length = c := by simp [unitsOf]

theorem takeText_ok {bs : Packet} {t : Text} {rest : Packet} (h : takeText bs = .ok (t, rest)) :
    bs = putText t ++ rest ∧ t.length ≤ maxTextLength := by
  unfold takeText at h
  split at h
  · rename_i c r hc
    split at h
    · cases h
    · rename_i hle
      split at h
      · rename_i f r' hf
        obtain ⟨rfl, hlen⟩ := takeBytes_ok hf
        injection h with h
        injection h with h1 h2
        subst h1 h2
        rw [unitsOf_length, takeU32_ok hc, putText, unitsOf_length, leBytes_flatMap_units hlen]
        exact ⟨by simp, Nat.le_of_not_lt hle⟩
      · cases h
  · cases h

/-! ## Combinators -/

theorem thenTake_ok {α β : Type} {first : FieldReader α} {second : α → FieldReader β} {bs : Packet} {b : β}
    {rest : Packet} (h : thenTake first second bs = .ok (b, rest)) :
    ∃ a mid, first bs = .ok (a, mid) ∧ second a mid = .ok (b, rest) := by
  unfold thenTake at h
  split at h
  · exact ⟨_, _, ‹_›, h⟩
  · cases h

theorem thenTake_of {α β : Type} {first : FieldReader α} {second : α → FieldReader β} {bs mid : Packet} {a : α}
    (h : first bs = .ok (a, mid)) : thenTake first second bs = second a mid := by
  simp only [thenTake, h]

theorem mapField_ok {α β : Type} {f : α → β} {read : FieldReader α} {bs : Packet} {b : β} {rest : Packet}
    (h : mapField f read bs = .ok (b, rest)) : ∃ a, read bs = .ok (a, rest) ∧ b = f a := by
  unfold mapField at h
  split at h
  · rename_i a r ha
    injection h with h
    injection h with h1 h2
    exact ⟨a, h2 ▸ ha, h1.symm⟩
  · cases h

theorem mapField_of {α β : Type} {f : α → β} {read : FieldReader α} {bs rest : Packet} {a : α}
    (h : read bs = .ok (a, rest)) : mapField f read bs = .ok (f a, rest) := by
  simp only [mapField, h]

theorem endOfPacket_ok {α : Type} {r : Except Reject (α × Packet)} {a : α} (h : endOfPacket r = .ok a) :
    r = .ok (a, []) := by
  unfold endOfPacket at h
  split at h
  · injection h with h; rw [h]
  · cases h
  · cases h

/-- Everything a successful decoding says: the opcode byte is one of the map, and its operand reader read the rest
to the end. -/
theorem decode_ok {p : Packet} {i : Instr} (h : decode p = .ok i) :
    ∃ o bs, p = Opcode.code o :: bs ∧ readOperands o bs = .ok (i, []) := by
  cases p with
  | nil => cases h
  | cons b bs =>
    simp only [decode] at h
    split at h
    · cases h
    · rename_i o ho
      exact ⟨o, bs, by rw [Opcode.ofByte_eq_some ho], endOfPacket_ok h⟩

/-- Decoding a packet whose opcode and operands are known. -/
theorem decode_of {o : Opcode} {bs : Packet} {i : Instr} (h : readOperands o bs = .ok (i, [])) :
    decode (o.code :: bs) = .ok i := by
  simp only [decode, Opcode.ofByte_code, h, endOfPacket]

end Sys2Proof
end

