-- ==== Sys2Proof/Laws/State.lean ====
section
/-! SUPPORT. One lemma per field per update of the state, and what each way of ending a command answers. -/

namespace Sys2Proof.Machine

variable (s : State) (packet : Packet) (w : BitVec 5) (k m : Word)

@[simp] theorem State.answered_phase : (s.answered packet).phase = s.phase := rfl
@[simp] theorem State.answered_w : (s.answered packet).w = s.w := rfl
@[simp] theorem State.answered_k : (s.answered packet).k = s.k := rfl
@[simp] theorem State.answered_m : (s.answered packet).m = s.m := rfl
@[simp] theorem State.answered_slots : (s.answered packet).slots = s.slots := rfl
@[simp] theorem State.answered_resets : (s.answered packet).resets = s.resets := rfl
@[simp] theorem State.answered_inbox : (s.answered packet).inbox = s.inbox := rfl
@[simp] theorem State.answered_responses : (s.answered packet).responses = s.responses ++ [packet] := rfl
@[simp] theorem State.answered_slot (j : Nat) : (s.answered packet).slot j = s.slot j := rfl
@[simp] theorem State.answered_cap : (s.answered packet).cap = s.cap := rfl

@[simp] theorem State.configure_phase : (s.configure w k m).phase = .build := rfl
@[simp] theorem State.configure_w : (s.configure w k m).w = w := rfl
@[simp] theorem State.configure_k : (s.configure w k m).k = k := rfl
@[simp] theorem State.configure_m : (s.configure w k m).m = m := rfl
@[simp] theorem State.configure_slots : (s.configure w k m).slots = s.slots.clear m.toNat := rfl
@[simp] theorem State.configure_resets : (s.configure w k m).resets = s.resets := rfl
@[simp] theorem State.configure_inbox : (s.configure w k m).inbox = s.inbox := rfl
@[simp] theorem State.configure_responses : (s.configure w k m).responses = s.responses := rfl

@[simp] theorem State.resetBlock_phase : s.resetBlock.phase = .idle := rfl
@[simp] theorem State.resetBlock_w : s.resetBlock.w = 0 := rfl
@[simp] theorem State.resetBlock_k : s.resetBlock.k = 0 := rfl
@[simp] theorem State.resetBlock_m : s.resetBlock.m = 0 := rfl
@[simp] theorem State.resetBlock_slots : s.resetBlock.slots = [] := rfl
@[simp] theorem State.resetBlock_resets : s.resetBlock.resets = s.resets + 1 := rfl
@[simp] theorem State.resetBlock_slot (j : Nat) :
    s.resetBlock.slot j = Sys2Proof.Config.resetSlot (s.resets + 1) j := rfl
@[simp] theorem State.resetBlock_inbox : s.resetBlock.inbox = s.inbox := rfl
@[simp] theorem State.resetBlock_responses : s.resetBlock.responses = s.responses := rfl

@[simp] theorem State.present_inbox : (s.present packet).inbox = .command packet :: s.inbox := rfl
@[simp] theorem State.present_responses : (s.present packet).responses = s.responses := rfl

/-- A slot that has been written since the reset, and one that has not. -/
theorem State.slot_of_read {s : State} {j : Nat} {v : Slot} (h : s.slots.read j = some v) : s.slot j = v := by
  rw [State.slot, h]; rfl

theorem State.slot_of_unwritten {s : State} {j : Nat} (h : s.slots.read j = none) :
    s.slot j = Sys2Proof.Config.resetSlot s.resets j := by rw [State.slot, h]; rfl

theorem State.SameBlock.refl : s.SameBlock s := ⟨rfl, rfl, rfl, rfl, rfl, rfl⟩

theorem State.SameBlock.trans {s t u : State} (h : s.SameBlock t) (h' : t.SameBlock u) : s.SameBlock u :=
  ⟨h'.phase.trans h.phase, h'.w.trans h.w, h'.k.trans h.k, h'.m.trans h.m, h'.slots.trans h.slots,
    h'.resets.trans h.resets⟩

/-- Answering changes nothing of the block (60_exceptions R111, 20_memory R34). -/
theorem State.answered_sameBlock : s.SameBlock (s.answered packet) := ⟨rfl, rfl, rfl, rfl, rfl, rfl⟩

theorem respond_eq (fields : Packet) : respond fields s = .next (s.answered (0x00 :: fields)) := rfl

theorem raise_eq (status : Status) : raise status s = .next (s.answered [status.code]) := rfl

theorem whenPhase_of_eq {required : Phase} {s : State} (h : s.phase = required)
    (body : Host.Outcome State Fault Refusal) : whenPhase required s body = body := if_pos h

theorem whenPhase_of_ne {required : Phase} {s : State} (h : s.phase ≠ required)
    (body : Host.Outcome State Fault Refusal) :
    whenPhase required s body = .next (s.answered [0x04]) := if_neg h

/-- Everything `whenPhase` can answer with: the body in the required phase, `WrongPhase` in another. -/
theorem whenPhase_next {required : Phase} {s t : State} {body : Host.Outcome State Fault Refusal}
    (h : whenPhase required s body = .next t) :
    (s.phase = required ∧ body = .next t) ∨ (s.phase ≠ required ∧ t = s.answered [0x04]) := by
  by_cases hp : s.phase = required
  · exact .inl ⟨hp, by rwa [whenPhase_of_eq hp] at h⟩
  · rw [whenPhase_of_ne hp] at h
    exact .inr ⟨hp, by injection h with h; exact h.symm⟩

/-- Everything `finish` can answer a next state with. -/
theorem finish_next {α : Type} {result : Except Fault α} {body : α → Host.Outcome State Fault Refusal} {t : State}
    (h : finish result body = .next t) : ∃ a, result = .ok a ∧ body a = .next t := by
  cases result with
  | ok a => exact ⟨a, rfl, h⟩
  | error f => cases h

/-- One step of a run of any machine behind the host's interface. -/
theorem core_run_next (machine : Host.Core) {s t : machine.State} (h : machine.step s = .next t) (n : Nat) :
    machine.run (n + 1) s = machine.run n t := by
  rw [Host.Core.run, h]

theorem Config.mMax_pos : 1 ≤ Sys2Proof.Config.mMax := Nat.le_add_left 1 _

theorem Config.mMax_le : Sys2Proof.Config.mMax ≤ 138547332 := Sys2Proof.Config.capacityIndex.isLt

end Sys2Proof.Machine
end

