-- ==== Sys2Proof/Laws/Slots.lean ====
section
/-! SUPPORT. The spec lemmas of the slot array: every operation keeps the canonical form, a slot reads back what was
written, and no other slot changes. -/

namespace Sys2Proof.Machine

/-- The canonical form as a library predicate: strictly rising indices. -/
theorem SlotMem.wf_iff (mem : SlotMem) : mem.wf = true ↔ mem.Pairwise fun a b => a.1 < b.1 := by
  induction mem with
  | nil => simp [SlotMem.wf]
  | cons a rest ih =>
    cases rest with
    | nil => simp [SlotMem.wf]
    | cons b rest =>
      rw [SlotMem.wf, Bool.and_eq_true, decide_eq_true_iff, ih, List.pairwise_cons (a := a)]
      constructor
      · rintro ⟨hab, hp⟩
        refine ⟨fun c hc => ?_, hp⟩
        rcases List.mem_cons.mp hc with rfl | hc
        · exact hab
        · exact hab.trans ((List.pairwise_cons.mp hp).1 c hc)
      · rintro ⟨ha, hp⟩
        exact ⟨ha b (List.mem_cons_self ..), hp⟩

theorem SlotMem.mem_write {mem : SlotMem} {j : Nat} {v : Slot} {c : Nat × Slot} (h : c ∈ mem.write j v) :
    c = (j, v) ∨ c ∈ mem := by
  induction mem with
  | nil => exact .inl (by simpa [SlotMem.write] using h)
  | cons a rest ih =>
    unfold SlotMem.write at h
    split at h
    · simpa using h
    · split at h
      · rcases List.mem_cons.mp h with rfl | h
        · exact .inl rfl
        · exact .inr (List.mem_cons_of_mem _ h)
      · rcases List.mem_cons.mp h with rfl | h
        · exact .inr (List.mem_cons_self ..)
        · exact (ih h).imp_right (List.mem_cons_of_mem _)

/-- A write keeps the canonical form. -/
theorem SlotMem.write_wf (mem : SlotMem) (j : Nat) (v : Slot) (h : mem.wf = true) : (mem.write j v).wf = true := by
  rw [SlotMem.wf_iff] at h ⊢
  induction mem with
  | nil => simp [SlotMem.write]
  | cons a rest ih =>
    obtain ⟨ha, hp⟩ := List.pairwise_cons.mp h
    unfold SlotMem.write
    split
    · rename_i hlt
      refine List.pairwise_cons.mpr ⟨fun c hc => ?_, h⟩
      rcases List.mem_cons.mp hc with rfl | hc
      · exact hlt
      · exact hlt.trans (ha c hc)
    · split
      · rename_i heq
        exact List.pairwise_cons.mpr ⟨fun c hc => heq ▸ ha c hc, hp⟩
      · rename_i hge hne
        refine List.pairwise_cons.mpr ⟨fun c hc => ?_, ih hp⟩
        rcases SlotMem.mem_write hc with rfl | hc
        · simp only at *; omega
        · exact ha c hc

/-- A slot not listed below the head of a canonical array reads as nothing. -/
theorem SlotMem.read_eq_none_of_lt {mem : SlotMem} {j : Nat} (h : ∀ c ∈ mem, j < c.1) : mem.read j = none := by
  induction mem with
  | nil => rfl
  | cons a rest ih =>
    have ha := h a (List.mem_cons_self ..)
    rw [SlotMem.read, if_neg (by omega)]
    exact ih fun c hc => h c (List.mem_cons_of_mem _ hc)

/-- Read after write: the slot written, and every other slot, whether or not the array is canonical. -/
theorem SlotMem.read_write (mem : SlotMem) (i j : Nat) (v : Slot) :
    (mem.write i v).read j = if i = j then some v else mem.read j := by
  induction mem with
  | nil => rfl
  | cons a rest ih =>
    unfold SlotMem.write
    by_cases hij : i = j
    · subst hij
      simp only [if_true] at ih ⊢
      split
      · simp [SlotMem.read]
      · split
        · simp [SlotMem.read]
        · rename_i hne
          simp [SlotMem.read, ih, Ne.symm hne]
    · simp only [if_neg hij] at ih ⊢
      split
      · simp [SlotMem.read, hij]
      · split
        · rename_i heq
          subst heq
          simp [SlotMem.read, hij]
        · simp [SlotMem.read, ih]

theorem SlotMem.read_append (l r : SlotMem) (j : Nat) :
    SlotMem.read (l ++ r) j = (SlotMem.read l j).or (SlotMem.read r j) := by
  induction l with
  | nil => simp [SlotMem.read]
  | cons a l ih =>
    simp only [List.cons_append, SlotMem.read]
    split
    · simp
    · exact ih

theorem SlotMem.read_map_zero (js : List Nat) (j : Nat) :
    SlotMem.read (js.map fun i => (i, (0 : Slot))) j = if j ∈ js then some 0 else none := by
  induction js with
  | nil => rfl
  | cons a js ih =>
    simp only [List.map_cons, SlotMem.read, ih, List.mem_cons]
    by_cases h : a = j
    · simp [h]
    · simp [h, Ne.symm h]

theorem SlotMem.read_filter (mem : SlotMem) (m j : Nat) (h : m ≤ j) :
    SlotMem.read (mem.filter fun c => decide (m ≤ c.1)) j = mem.read j := by
  induction mem with
  | nil => rfl
  | cons a rest ih =>
    rw [List.filter_cons]
    split
    · simp only [SlotMem.read, ih]
    · rename_i hm
      rw [ih, SlotMem.read, if_neg]
      rintro rfl
      exact hm (by simpa using h)

/-- Clearing: slots below `m` read 0, the others as before. -/
theorem SlotMem.read_clear (mem : SlotMem) (m j : Nat) :
    (mem.clear m).read j = if j < m then some 0 else mem.read j := by
  rw [SlotMem.clear, SlotMem.read_append, SlotMem.read_map_zero]
  by_cases h : j < m
  · simp [h]
  · simp [h, SlotMem.read_filter mem m j (by omega)]

/-- Clearing keeps the canonical form. -/
theorem SlotMem.clear_wf (mem : SlotMem) (m : Nat) (h : mem.wf = true) : (mem.clear m).wf = true := by
  rw [SlotMem.wf_iff] at h ⊢
  rw [SlotMem.clear, List.pairwise_append]
  refine ⟨?_, h.filter _, ?_⟩
  · rw [List.pairwise_map]
    exact List.pairwise_lt_range
  · intro a ha b hb
    obtain ⟨j, hj, rfl⟩ := List.mem_map.mp ha
    have hb' := (List.mem_filter.mp hb).2
    simp only [List.mem_range, decide_eq_true_eq] at hj hb'
    simp only
    omega

/-- Clearing twice is clearing once. -/
theorem SlotMem.clear_clear (mem : SlotMem) (m : Nat) : (mem.clear m).clear m = mem.clear m := by
  simp only [SlotMem.clear, List.filter_append, List.filter_filter, Bool.and_self]
  congr 1
  rw [List.filter_eq_nil_iff.mpr, List.nil_append]
  intro c hc
  obtain ⟨j, hj, rfl⟩ := List.mem_map.mp hc
  simpa using hj

theorem SlotMem.mem_clear {mem : SlotMem} {m : Nat} {c : Nat × Slot} (h : c ∈ mem.clear m) :
    c.1 < m ∨ c ∈ mem := by
  rw [SlotMem.clear, List.mem_append] at h
  rcases h with h | h
  · obtain ⟨j, hj, rfl⟩ := List.mem_map.mp h
    exact .inl (by simpa using hj)
  · exact .inr (List.mem_filter.mp h).1

/-- Writing to a slot the value it was last written leaves a canonical array as it is. -/
theorem SlotMem.write_read_self {mem : SlotMem} {j : Nat} {v : Slot} (h : mem.wf = true)
    (hj : mem.read j = some v) : mem.write j v = mem := by
  rw [SlotMem.wf_iff] at h
  induction mem with
  | nil => cases hj
  | cons a rest ih =>
    obtain ⟨ha, hp⟩ := List.pairwise_cons.mp h
    rw [SlotMem.read] at hj
    rw [SlotMem.write]
    split at hj
    · rename_i haj
      subst haj
      injection hj with hj
      subst hj
      simp
    · rename_i hne
      have hlt : ¬ j < a.1 := by
        intro hlt
        rw [SlotMem.read_eq_none_of_lt fun c hc => hlt.trans (ha c hc)] at hj
        cases hj
      rw [if_neg hlt, if_neg (Ne.symm hne), ih hp hj]

/-! ## Reading and writing slots of the filter -/

/-- A slot after a write, whatever the slots held. -/
theorem State.slot_write (s : State) (c : Nat) (v : Slot) (j : Nat) :
    State.slot { s with slots := s.slots.write c v } j = if c = j then v else s.slot j := by
  simp only [State.slot, SlotMem.read_write]
  split <;> rfl

/-- A slot after a clear. -/
theorem State.configure_slot (s : State) (w : BitVec 5) (k m : Word) (j : Nat) :
    (s.configure w k m).slot j = if j < m.toNat then 0 else s.slot j := by
  simp only [State.slot, State.configure_slots, State.configure_resets, SlotMem.read_clear]
  split <;> rfl

/-- Everything a successful slot read says. -/
theorem State.readSlot_ok {s : State} {j : Nat} {v : Slot} (h : s.readSlot j = .ok v) :
    j < s.m.toNat ∧ s.slot j = v := by
  unfold State.readSlot at h
  split at h
  · injection h with h
    exact ⟨‹_›, h⟩
  · cases h

theorem State.readSlot_of {s : State} {j : Nat} (hj : j < s.m.toNat) : s.readSlot j = .ok (s.slot j) := if_pos hj

/-- Everything a successful slot write does. -/
theorem State.writeSlot_ok {s t : State} {j : Nat} {v : Slot} (h : s.writeSlot j v = .ok t) :
    j < s.m.toNat ∧ t = { s with slots := s.slots.write j v } := by
  unfold State.writeSlot at h
  split at h
  · injection h with h
    exact ⟨‹_›, h.symm⟩
  · cases h

/-- Everything reading a list of slots says: each is a slot of the filter, and the values are theirs, in order. -/
theorem State.readSlots_ok {s : State} {js : List Nat} {vs : List Slot} (h : s.readSlots js = .ok vs) :
    (∀ j ∈ js, j < s.m.toNat) ∧ vs = js.map s.slot := by
  induction js generalizing vs with
  | nil => injection h with h; subst h; exact ⟨by simp, rfl⟩
  | cons j js ih =>
    unfold State.readSlots at h
    split at h
    · cases h
    · rename_i v hv
      split at h
      · cases h
      · rename_i us hus
        injection h with h
        subst h
        obtain ⟨hj, rfl⟩ := State.readSlot_ok hv
        obtain ⟨hjs, rfl⟩ := ih hus
        exact ⟨List.forall_mem_cons.mpr ⟨hj, hjs⟩, rfl⟩

theorem State.readSlots_of {s : State} {js : List Nat} (h : ∀ j ∈ js, j < s.m.toNat) :
    s.readSlots js = .ok (js.map s.slot) := by
  induction js with
  | nil => rfl
  | cons j js ih =>
    obtain ⟨hj, hjs⟩ := List.forall_mem_cons.mp h
    simp [State.readSlots, State.readSlot_of hj, ih hjs]

end Sys2Proof.Machine
end

