-- ==== Sys2Proof/Laws/Filter.lean ====
section
/-! SUPPORT. The spec lemmas of the filter's shared operations: the candidate list, the least candidate, raising the
candidate slots, the insertion and the export. -/

namespace Sys2Proof.Machine

/-! ## The candidate list -/

theorem State.mem_candidates {s : State} {key : Key} {j : Nat} :
    j ∈ s.candidates key ↔ ∃ i < s.k.toNat, slotIndex s.m key i = j := by
  simp [State.candidates]

@[simp] theorem State.candidates_length (s : State) (key : Key) :
    (s.candidates key).length = s.k.toNat := by simp [State.candidates]

/-- "Every slot index a command forms is in range" (20_memory R27). -/
theorem State.candidates_lt {s : State} {key : Key} {j : Nat} (hm : 1 ≤ s.m.toNat) (h : j ∈ s.candidates key) :
    j < s.m.toNat := by
  obtain ⟨i, _, rfl⟩ := State.mem_candidates.mp h
  exact Nat.mod_lt _ hm

/-- The candidate list depends on `K` and `M` alone. -/
theorem State.candidates_congr {s t : State} (key : Key) (hk : t.k = s.k) (hm : t.m = s.m) :
    t.candidates key = s.candidates key := by simp [State.candidates, hk, hm]

/-! ## The cap -/

theorem State.cap_lt (s : State) : s.cap < 2 ^ 31 := by
  have hw := s.w.isLt
  have : 2 ^ s.w.toNat ≤ 2 ^ 31 := Nat.pow_le_pow_right (by norm_num) (by omega)
  unfold State.cap
  omega

theorem satAdd_le (cap a f : Nat) : satAdd cap a f ≤ cap := Nat.min_le_right _ _

/-- The saturated sum fits a physical slot. -/
theorem State.satAdd_toNat (s : State) (a f : Nat) :
    (BitVec.ofNat 31 (satAdd s.cap a f)).toNat = satAdd s.cap a f := by
  rw [BitVec.toNat_ofNat, Nat.mod_eq_of_lt]
  exact (satAdd_le _ _ _).trans_lt s.cap_lt

/-! ## The least candidate -/

theorem foldl_min_le (vs : List Slot) (a : Nat) :
    vs.foldl (fun a b => min a b.toNat) a ≤ a ∧
      ∀ v ∈ vs, vs.foldl (fun a b => min a b.toNat) a ≤ v.toNat := by
  induction vs generalizing a with
  | nil => simp
  | cons u vs ih =>
    obtain ⟨h1, h2⟩ := ih (min a u.toNat)
    rw [List.foldl_cons]
    refine ⟨h1.trans (Nat.min_le_left ..), fun v hv => ?_⟩
    rcases List.mem_cons.mp hv with rfl | hv
    · exact h1.trans (Nat.min_le_right ..)
    · exact h2 v hv

theorem foldl_min_mem (vs : List Slot) (a : Nat) :
    vs.foldl (fun a b => min a b.toNat) a = a ∨
      ∃ v ∈ vs, v.toNat = vs.foldl (fun a b => min a b.toNat) a := by
  induction vs generalizing a with
  | nil => simp
  | cons u vs ih =>
    rw [List.foldl_cons]
    rcases ih (min a u.toNat) with h | ⟨v, hv, h⟩
    · rcases Nat.le_total a u.toNat with hle | hle
      · left; rw [h, Nat.min_eq_left hle]
      · right; exact ⟨u, List.mem_cons_self .., by rw [h, Nat.min_eq_right hle]⟩
    · exact .inr ⟨v, List.mem_cons_of_mem _ hv, h⟩

/-- The minimum of a list of slots: attained, and below every one. -/
theorem minSlot_ok {vs : List Slot} {mn : Nat} (h : minSlot vs = .ok mn) :
    (∃ v ∈ vs, v.toNat = mn) ∧ ∀ v ∈ vs, mn ≤ v.toNat := by
  cases vs with
  | nil => cases h
  | cons v vs =>
    injection h with h
    subst h
    obtain ⟨h1, h2⟩ := foldl_min_le vs v.toNat
    refine ⟨?_, ?_⟩
    · rcases foldl_min_mem vs v.toNat with h | ⟨u, hu, h⟩
      · exact ⟨v, List.mem_cons_self .., h.symm⟩
      · exact ⟨u, List.mem_cons_of_mem _ hu, h⟩
    · intro u hu
      rcases List.mem_cons.mp hu with rfl | hu
      · exact h1
      · exact h2 u hu

theorem minSlot_of_ne_nil {vs : List Slot} (h : vs ≠ []) : ∃ mn, minSlot vs = .ok mn := by
  cases vs with
  | nil => exact absurd rfl h
  | cons v vs => exact ⟨_, rfl⟩

/-- Everything the least candidate says: every candidate is a slot of the filter, and it is the value of one of them and
not above any. -/
theorem State.minCandidate_ok {s : State} {key : Key} {mn : Nat} (h : s.minCandidate key = .ok mn) :
    (∀ j ∈ s.candidates key, j < s.m.toNat ∧ mn ≤ (s.slot j).toNat) ∧
      ∃ j ∈ s.candidates key, (s.slot j).toNat = mn := by
  unfold State.minCandidate at h
  split at h
  · cases h
  · rename_i vs hvs
    obtain ⟨hlt, rfl⟩ := State.readSlots_ok hvs
    obtain ⟨⟨v, hv, hmn⟩, hle⟩ := minSlot_ok h
    obtain ⟨j, hj, rfl⟩ := List.mem_map.mp hv
    exact ⟨fun i hi => ⟨hlt i hi, hle _ (List.mem_map_of_mem hi)⟩, j, hj, hmn⟩

/-- The least candidate exists when there is a candidate and each is a slot of the filter. -/
theorem State.minCandidate_of {s : State} {key : Key} (hk : 1 ≤ s.k.toNat)
    (h : ∀ j ∈ s.candidates key, j < s.m.toNat) : ∃ mn, s.minCandidate key = .ok mn := by
  have hne : (s.candidates key).map s.slot ≠ [] := by
    intro h0
    have hlen := congrArg List.length h0
    rw [List.length_map, State.candidates_length, List.length_nil] at hlen
    omega
  obtain ⟨mn, hmn⟩ := minSlot_of_ne_nil hne
  exact ⟨mn, by simp only [State.minCandidate, State.readSlots_of h, hmn]⟩

/-! ## Raising the candidate slots -/

/-- Everything raising a list of slots does: only slots change, each listed slot becomes the larger of its value and
the new one, no other slot changes, the canonical form is kept, and no entry of the array but those of listed slots
is new or gone. -/
theorem State.raiseSlots_ok {new : Slot} {cs : List Nat} {s t : State}
    (h : State.raiseSlots new cs s = .ok t) :
    t = { s with slots := t.slots } ∧
      (∀ j ∈ cs, j < s.m.toNat) ∧
      (∀ j, t.slot j = if j ∈ cs then (if s.slot j ≤ new then new else s.slot j) else s.slot j) ∧
      (s.slots.wf = true → t.slots.wf = true) ∧
      (∀ c ∈ t.slots, c ∈ s.slots ∨ c.1 ∈ cs) ∧
      ∀ j, (s.slots.read j).isSome = true → (t.slots.read j).isSome = true := by
  induction cs generalizing s with
  | nil =>
    injection h with h
    subst h
    exact ⟨rfl, by simp, by simp, id, fun c hc => .inl hc, fun _ => id⟩
  | cons c cs ih =>
    unfold State.raiseSlots at h
    split at h
    · cases h
    · rename_i v hv
      obtain ⟨hc, rfl⟩ := State.readSlot_ok hv
      split at h
      · rename_i hle
        split at h
        · cases h
        · rename_i s' hs'
          obtain ⟨-, rfl⟩ := State.writeSlot_ok hs'
          obtain ⟨h1, h2, h3, h4, h5, h6⟩ := ih h
          refine ⟨h1, List.forall_mem_cons.mpr ⟨hc, h2⟩, ?_, fun hwf => h4 (SlotMem.write_wf _ _ _ hwf), ?_, ?_⟩
          · intro j
            rw [h3, State.slot_write]
            by_cases hcj : c = j
            · subst hcj; simp [hle]
            · simp [hcj, Ne.symm hcj]
          · intro d hd
            rcases h5 d hd with hd | hd
            · rcases SlotMem.mem_write hd with rfl | hd
              · exact .inr (List.mem_cons_self ..)
              · exact .inl hd
            · exact .inr (List.mem_cons_of_mem _ hd)
          · intro j hj
            refine h6 j ?_
            rw [SlotMem.read_write]
            split
            · rfl
            · exact hj
      · rename_i hgt
        obtain ⟨h1, h2, h3, h4, h5, h6⟩ := ih h
        refine ⟨h1, List.forall_mem_cons.mpr ⟨hc, h2⟩, ?_, h4, ?_, h6⟩
        · intro j
          rw [h3]
          by_cases hcj : j = c
          · subst hcj; simp [hgt]
          · simp [hcj]
        · intro d hd
          exact (h5 d hd).imp_right (List.mem_cons_of_mem _)

/-- Raising succeeds when every listed slot is a slot of the filter. -/
theorem State.raiseSlots_of {new : Slot} {cs : List Nat} {s : State} (h : ∀ j ∈ cs, j < s.m.toNat) :
    ∃ t, State.raiseSlots new cs s = .ok t := by
  induction cs generalizing s with
  | nil => exact ⟨s, rfl⟩
  | cons c cs ih =>
    obtain ⟨hc, hcs⟩ := List.forall_mem_cons.mp h
    rw [State.raiseSlots, State.readSlot_of hc, State.writeSlot, if_pos hc]
    dsimp only
    split
    · exact ih hcs
    · exact ih hcs

/-- Raising written slots of a canonical array to a value that none of them is below changes nothing. -/
theorem State.raiseSlots_self {new : Slot} {cs : List Nat} {s : State} (hwf : s.slots.wf = true)
    (h : ∀ j ∈ cs, j < s.m.toNat ∧ (s.slots.read j).isSome = true ∧ new ≤ s.slot j) :
    State.raiseSlots new cs s = .ok s := by
  induction cs with
  | nil => rfl
  | cons c cs ih =>
    obtain ⟨⟨hc, hw, hle⟩, hcs⟩ := List.forall_mem_cons.mp h
    rw [State.raiseSlots, State.readSlot_of hc, State.writeSlot, if_pos hc]
    dsimp only
    split
    · rename_i hge
      obtain ⟨v, hv⟩ := Option.isSome_iff_exists.mp hw
      have e : v = new := by rw [← State.slot_of_read hv]; exact BitVec.le_antisymm hge hle
      rw [SlotMem.write_read_self hwf (e ▸ hv)]
      exact ih hcs
    · exact ih hcs

/-- Everything an insertion does when it succeeds (41_filter R77): it raised the candidate slots to the saturated sum
of the least candidate and the frequency. -/
theorem State.insert_ok {s t : State} {freq : Word} {key : Key} (h : s.insert freq key = .ok t) :
    ∃ mn, s.minCandidate key = .ok mn ∧
      State.raiseSlots (BitVec.ofNat 31 (satAdd s.cap mn freq.toNat)) (s.candidates key) s = .ok t := by
  unfold State.insert at h
  split at h
  · cases h
  · exact ⟨_, ‹_›, h⟩

/-! ## The export -/

/-- The exported bits are the slots in index order (41_filter R82); the export cannot fail. -/
theorem State.exportBits_eq (s : State) :
    s.exportBits = .ok ((List.range s.m.toNat).flatMap fun j => binN s.w.toNat (s.slot j).toNat) := by
  have h := State.readSlots_of (s := s) (js := List.range s.m.toNat) fun j hj => List.mem_range.mp hj
  simp only [State.exportBits, h, List.flatMap_map]

end Sys2Proof.Machine
end

