-- ==== Sys2Proof/Laws/Exec.lean ====
section
/-! SUPPORT. One inversion lemma for a command that answers a next state, one for each shape of command. -/

namespace Sys2Proof.Machine

theorem respond_next {fields : Packet} {s t : State} (h : respond fields s = .next t) :
    t = s.answered (0x00 :: fields) := by
  injection h with h; exact h.symm

theorem raise_next {status : Status} {s t : State} (h : raise status s = .next t) : t = s.answered [status.code] := by
  injection h with h; exact h.symm

theorem execSbfInit_next {n : Word} {p : F64} {w : Byte} {s t : State} (h : execSbfInit n p w s = .next t) :
    t = s.answered [0x01] ∨ t = s.answered [0x02] ∨
      (widthOk w = true ∧ rateOk p = true ∧ n ≠ 0 ∧ sizingM n p ≠ 0 ∧ sizingM n p ≤ Config.mMax ∧
        t = (s.configure (w.setWidth 5) (BitVec.ofNat 32 (sizingK n p)) (BitVec.ofNat 32 (sizingM n p))).answered
          (0x00 :: (putU32 (BitVec.ofNat 32 (sizingM n p)) ++ putU32 (BitVec.ofNat 32 (sizingK n p))))) := by
  unfold execSbfInit at h
  split at h
  · exact .inl (raise_next h)
  · split at h
    · exact .inl (raise_next h)
    · split at h
      · exact .inr (.inl (raise_next h))
      · split at h
        · exact .inl (raise_next h)
        · rename_i hw hp hn hm
          simp only [Bool.not_eq_true', Bool.not_eq_false] at hw hp
          obtain ⟨hm0, hm1⟩ := not_or.mp hm
          exact .inr (.inr ⟨hw, hp, hn, hm0, Nat.le_of_not_lt hm1, respond_next h⟩)

theorem execSbfCfg_next {m k : Word} {w : Byte} {s t : State} (h : execSbfCfg m k w s = .next t) :
    t = s.answered [0x01] ∨
      (widthOk w = true ∧ m ≠ 0 ∧ m.toNat ≤ Config.mMax ∧ k ≠ 0 ∧
        t = (s.configure (w.setWidth 5) k m).answered [0x00]) := by
  unfold execSbfCfg at h
  split at h
  · exact .inl (raise_next h)
  · split at h
    · exact .inl (raise_next h)
    · split at h
      · exact .inl (raise_next h)
      · rename_i hw hm hk
        simp only [Bool.not_eq_true', Bool.not_eq_false] at hw
        obtain ⟨hm0, hm1⟩ := not_or.mp hm
        exact .inr ⟨hw, hm0, Nat.le_of_not_lt hm1, hk, respond_next h⟩

theorem execSbfInsert_next {freq : Word} {key : Key} {s t : State} (h : execSbfInsert freq key s = .next t) :
    (s.phase ≠ .build ∧ t = s.answered [0x04]) ∨
      (s.phase = .build ∧ ∃ u, s.insert freq key = .ok u ∧ t = u.answered [0x00]) := by
  rcases whenPhase_next h with ⟨hp, h⟩ | ⟨hp, h⟩
  · obtain ⟨u, hu, h⟩ := finish_next h
    exact .inr ⟨hp, u, hu, respond_next h⟩
  · exact .inl ⟨hp, h⟩

theorem execSbfSeal_next {s t : State} (h : execSbfSeal s = .next t) :
    (s.phase ≠ .build ∧ t = s.answered [0x04]) ∨
      (s.phase = .build ∧ t = State.answered { s with phase := .sealed } [0x00]) := by
  rcases whenPhase_next h with ⟨hp, h⟩ | ⟨hp, h⟩
  · exact .inr ⟨hp, respond_next h⟩
  · exact .inl ⟨hp, h⟩

theorem execSbfQuery_next {key : Key} {s t : State} (h : execSbfQuery key s = .next t) :
    (s.phase ≠ .sealed ∧ t = s.answered [0x04]) ∨
      (s.phase = .sealed ∧ ∃ mn, s.minCandidate key = .ok mn ∧
        t = s.answered (0x00 :: putU32 (BitVec.ofNat 32 mn))) := by
  rcases whenPhase_next h with ⟨hp, h⟩ | ⟨hp, h⟩
  · obtain ⟨mn, hmn, h⟩ := finish_next h
    exact .inr ⟨hp, mn, hmn, respond_next h⟩
  · exact .inl ⟨hp, h⟩

theorem execSbfInfo_next {s t : State} (h : execSbfInfo s = .next t) :
    (s.phase ≠ .sealed ∧ t = s.answered [0x04]) ∨
      (s.phase = .sealed ∧
        t = s.answered (0x00 :: (putU32 s.k ++ putU32 (s.w.setWidth 32) ++ putU32 s.m))) := by
  rcases whenPhase_next h with ⟨hp, h⟩ | ⟨hp, h⟩
  · exact .inr ⟨hp, respond_next h⟩
  · exact .inl ⟨hp, h⟩

theorem execSbfExport_next {s t : State} (h : execSbfExport s = .next t) :
    (s.phase ≠ .sealed ∧ t = s.answered [0x04]) ∨
      (s.phase = .sealed ∧ ∃ bits, s.exportBits = .ok bits ∧ t = s.answered (0x00 :: putBits bits)) := by
  rcases whenPhase_next h with ⟨hp, h⟩ | ⟨hp, h⟩
  · obtain ⟨bits, hbits, h⟩ := finish_next h
    exact .inr ⟨hp, bits, hbits, respond_next h⟩
  · exact .inl ⟨hp, h⟩

theorem execB15Dec_next {text : Text} {s t : State} (h : execB15Dec text s = .next t) :
    (b15Decode text = none ∧ t = s.answered [0x03]) ∨
      (∃ bits, b15Decode text = some bits ∧ t = s.answered (0x00 :: putBits bits)) := by
  unfold execB15Dec at h
  split at h
  · exact .inl ⟨‹_›, raise_next h⟩
  · exact .inr ⟨_, ‹_›, respond_next h⟩

/-! ## When a command completes -/

theorem execHash_eq (seed : Word) (key : Key) (s : State) :
    execHash seed key s = .next (s.answered (0x00 :: putU32 (hashKey key seed))) := rfl

theorem widthOk_iff (w : Byte) : widthOk w = true ↔ 1 ≤ w.toNat ∧ w.toNat ≤ 31 := by simp [widthOk]

theorem execSbfInit_legal {n : Word} {p : F64} {w : Byte} (s : State) (hw : widthOk w = true)
    (hp : rateOk p = true) (hn : n ≠ 0) (hm : sizingM n p ≠ 0) (hm' : sizingM n p ≤ Config.mMax) :
    execSbfInit n p w s =
      .next ((s.configure (w.setWidth 5) (BitVec.ofNat 32 (sizingK n p))
        (BitVec.ofNat 32 (sizingM n p))).answered
          (0x00 :: (putU32 (BitVec.ofNat 32 (sizingM n p)) ++ putU32 (BitVec.ofNat 32 (sizingK n p))))) := by
  have h : ¬ (sizingM n p = 0 ∨ Config.mMax < sizingM n p) := by omega
  rw [execSbfInit, hw, hp, if_neg hn, if_neg h]; rfl

theorem execSbfCfg_legal {m k : Word} {w : Byte} (s : State) (hw : widthOk w = true) (hm : m ≠ 0)
    (hm' : m.toNat ≤ Config.mMax) (hk : k ≠ 0) :
    execSbfCfg m k w s = .next ((s.configure (w.setWidth 5) k m).answered [0x00]) := by
  have h : ¬ (m = 0 ∨ Config.mMax < m.toNat) := not_or.mpr ⟨hm, Nat.not_lt.mpr hm'⟩
  rw [execSbfCfg, hw, if_neg h, if_neg hk]; rfl

/-- Whether `SBF_INIT` succeeds, and the status it answers if not, depend on its operands alone (41_filter R88 "every
failure is a deterministic function of the input"). -/
theorem execSbfInit_cases (n : Word) (p : F64) (w : Byte) :
    (∃ r, ∀ s, execSbfInit n p w s = .next (s.answered r)) ∨
      (widthOk w = true ∧ rateOk p = true ∧ n ≠ 0 ∧ sizingM n p ≠ 0 ∧ sizingM n p ≤ Config.mMax) := by
  by_cases hw : widthOk w = true
  · by_cases hp : rateOk p = true
    · by_cases hn : n = 0
      · exact .inl ⟨[0x02], fun s => by rw [execSbfInit, hw, hp, if_pos hn]; rfl⟩
      · by_cases hm : sizingM n p = 0 ∨ Config.mMax < sizingM n p
        · exact .inl ⟨[0x01], fun s => by rw [execSbfInit, hw, hp, if_neg hn, if_pos hm]; rfl⟩
        · exact .inr ⟨hw, hp, hn, by omega, by omega⟩
    · exact .inl ⟨[0x01], fun s => by
        rw [execSbfInit, hw, Bool.eq_false_iff.mpr hp]; rfl⟩
  · exact .inl ⟨[0x01], fun s => by rw [execSbfInit, Bool.eq_false_iff.mpr hw]; rfl⟩

/-- The same for `SBF_CFG`. -/
theorem execSbfCfg_cases (m k : Word) (w : Byte) :
    (∃ r, ∀ s, execSbfCfg m k w s = .next (s.answered r)) ∨
      (widthOk w = true ∧ m ≠ 0 ∧ m.toNat ≤ Config.mMax ∧ k ≠ 0) := by
  by_cases hw : widthOk w = true
  · by_cases hm : m = 0 ∨ Config.mMax < m.toNat
    · exact .inl ⟨[0x01], fun s => by rw [execSbfCfg, hw, if_pos hm]; rfl⟩
    · by_cases hk : k = 0
      · exact .inl ⟨[0x01], fun s => by rw [execSbfCfg, hw, if_neg hm, if_pos hk]; rfl⟩
      · exact .inr ⟨hw, (not_or.mp hm).1, Nat.le_of_not_lt (not_or.mp hm).2, hk⟩
  · exact .inl ⟨[0x01], fun s => by rw [execSbfCfg, Bool.eq_false_iff.mpr hw]; rfl⟩

theorem execSbfInsert_build {freq : Word} {key : Key} {s u : State} (hp : s.phase = .build)
    (hu : s.insert freq key = .ok u) : execSbfInsert freq key s = .next (u.answered [0x00]) := by
  rw [execSbfInsert, whenPhase_of_eq hp, hu]; rfl

theorem execSbfSeal_build {s : State} (hp : s.phase = .build) :
    execSbfSeal s = .next (State.answered { s with phase := .sealed } [0x00]) := by
  rw [execSbfSeal, whenPhase_of_eq hp]; rfl

theorem execSbfQuery_sealed {key : Key} {s : State} {mn : Nat} (hp : s.phase = .sealed)
    (hmn : s.minCandidate key = .ok mn) :
    execSbfQuery key s = .next (s.answered (0x00 :: putU32 (BitVec.ofNat 32 mn))) := by
  rw [execSbfQuery, whenPhase_of_eq hp, hmn]; rfl

theorem execSbfInfo_sealed {s : State} (hp : s.phase = .sealed) :
    execSbfInfo s = .next (s.answered (0x00 :: (putU32 s.k ++ putU32 (s.w.setWidth 32) ++ putU32 s.m))) := by
  rw [execSbfInfo, whenPhase_of_eq hp]; rfl

theorem execSbfExport_sealed {s : State} {bits : Bits} (hp : s.phase = .sealed) (hb : s.exportBits = .ok bits) :
    execSbfExport s = .next (s.answered (0x00 :: putBits bits)) := by
  rw [execSbfExport, whenPhase_of_eq hp, hb]; rfl

theorem execB15Enc_eq (bits : Bits) (s : State) :
    execB15Enc bits s = .next (s.answered (0x00 :: putText (b15Encode bits))) := rfl

/-- Everything a command that answers a next state can have done: it changed nothing but the port, or it configured a
new filter, or it inserted, or it sealed. Every whole-machine rule is a case analysis on this. -/
theorem exec_next {i : Instr} {s t : State} (h : exec i s = .next t) :
    (∃ r, t = s.answered r) ∨
      (∃ w k m r, ((∃ n p b, i = .sbfInit n p b) ∨ (∃ m' k' b, i = .sbfCfg m' k' b)) ∧
        t = (s.configure w k m).answered (0x00 :: r)) ∨
      (∃ freq key u, i = .sbfInsert freq key ∧ s.phase = .build ∧ s.insert freq key = .ok u ∧
        t = u.answered [0x00]) ∨
      (i = .sbfSeal ∧ s.phase = .build ∧ t = State.answered { s with phase := .sealed } [0x00]) := by
  cases i with
  | hash seed key => exact .inl ⟨_, respond_next h⟩
  | sbfInit n p w =>
    rcases execSbfInit_next h with h | h | ⟨_, _, _, _, _, h⟩
    · exact .inl ⟨_, h⟩
    · exact .inl ⟨_, h⟩
    · exact .inr (.inl ⟨_, _, _, _, .inl ⟨n, p, w, rfl⟩, h⟩)
  | sbfCfg m k w =>
    rcases execSbfCfg_next h with h | ⟨_, _, _, _, h⟩
    · exact .inl ⟨_, h⟩
    · exact .inr (.inl ⟨_, _, _, _, .inr ⟨m, k, w, rfl⟩, h⟩)
  | sbfInsert freq key =>
    rcases execSbfInsert_next h with ⟨_, h⟩ | ⟨hp, u, hu, h⟩
    · exact .inl ⟨_, h⟩
    · exact .inr (.inr (.inl ⟨freq, key, u, rfl, hp, hu, h⟩))
  | sbfSeal =>
    rcases execSbfSeal_next h with ⟨_, h⟩ | ⟨hp, h⟩
    · exact .inl ⟨_, h⟩
    · exact .inr (.inr (.inr ⟨rfl, hp, h⟩))
  | sbfQuery key =>
    rcases execSbfQuery_next h with ⟨_, h⟩ | ⟨_, _, _, h⟩
    · exact .inl ⟨_, h⟩
    · exact .inl ⟨_, h⟩
  | sbfInfo =>
    rcases execSbfInfo_next h with ⟨_, h⟩ | ⟨_, h⟩
    · exact .inl ⟨_, h⟩
    · exact .inl ⟨_, h⟩
  | sbfExport =>
    rcases execSbfExport_next h with ⟨_, h⟩ | ⟨_, _, _, h⟩
    · exact .inl ⟨_, h⟩
    · exact .inl ⟨_, h⟩
  | b15Enc bits => exact .inl ⟨_, respond_next h⟩
  | b15Dec text =>
    rcases execB15Dec_next h with ⟨_, h⟩ | ⟨_, _, h⟩
    · exact .inl ⟨_, h⟩
    · exact .inl ⟨_, h⟩

end Sys2Proof.Machine
end

