-- ==== Sys2Proof/Laws/Inv.lean ====
section
/-! SUPPORT. Each update of the state keeps the invariant, and under the invariant each slot operation of a command
answers. -/

namespace Sys2Proof.Machine

theorem State.Inv.answered {s : State} (h : s.Inv) (packet : Packet) : (s.answered packet).Inv :=
  ⟨h.1, h.2, h.3, h.4, h.5, h.6, h.7, h.8⟩

theorem State.Inv.with_inbox {s : State} (h : s.Inv) (events : List HostEvent) :
    State.Inv { s with inbox := events } := ⟨h.1, h.2, h.3, h.4, h.5, h.6, h.7, h.8⟩

theorem State.Inv.with_sealed {s : State} (h : s.Inv) (hp : s.phase ≠ .idle) :
    State.Inv { s with phase := .sealed } :=
  ⟨h.1, h.2, (fun h0 => by cases h0), fun _ => h.4 hp, fun _ => h.5 hp, fun _ => h.6 hp, fun _ => h.7 hp,
    fun _ => h.8 hp⟩

theorem State.resetBlock_inv (s : State) : s.resetBlock.Inv :=
  ⟨rfl, by simp, fun _ => ⟨rfl, rfl, rfl⟩, fun h => absurd rfl h, fun h => absurd rfl h, fun h => absurd rfl h,
    fun h => absurd rfl h, fun h => absurd rfl h⟩

theorem State.Inv.configure {s : State} (h : s.Inv) {w : BitVec 5} {k m : Word} (hw : 1 ≤ w.toNat)
    (hk : 1 ≤ k.toNat) (hm : 1 ≤ m.toNat) (hm' : m.toNat ≤ Config.mMax) : (s.configure w k m).Inv := by
  refine ⟨SlotMem.clear_wf _ _ h.1, ?_, (fun h0 => by cases h0), fun _ => hw, fun _ => hk, fun _ => ⟨hm, hm'⟩, ?_, ?_⟩
  · intro c hc
    rcases SlotMem.mem_clear hc with h1 | h1
    · omega
    · exact h.2 c h1
  · intro _ j (hj : j < m.toNat)
    rw [State.configure_slot, if_pos hj]
    exact Nat.zero_le _
  · intro _ j (hj : j < m.toNat)
    rw [State.configure_slots, SlotMem.read_clear, if_pos hj]
    rfl

/-- The free values that the slots hold after a reset do not matter to a filter. -/
theorem State.Inv.slot_resets {s : State} (h : s.Inv) (hp : s.phase ≠ .idle) (n : Nat) {j : Nat}
    (hj : j < s.m.toNat) : State.slot { s with resets := n } j = s.slot j := by
  obtain ⟨v, hv⟩ := Option.isSome_iff_exists.mp (h.slots_written hp j hj)
  rw [State.slot_of_read hv, State.slot_of_read (s := { s with resets := n }) hv]

/-- Every candidate slot of a filter is in range (20_memory R27). -/
theorem State.Inv.candidates {s : State} (h : s.Inv) (hp : s.phase ≠ .idle) (key : Key) :
    ∀ j ∈ s.candidates key, j < s.m.toNat :=
  fun _ hj => State.candidates_lt (h.size_legal hp).1 hj

theorem State.Inv.minCandidate {s : State} (h : s.Inv) (hp : s.phase ≠ .idle) (key : Key) :
    ∃ mn, s.minCandidate key = .ok mn ∧ mn ≤ s.cap := by
  obtain ⟨mn, hmn⟩ := State.minCandidate_of (h.count_legal hp) (h.candidates hp key)
  obtain ⟨_, j, hj, e⟩ := State.minCandidate_ok hmn
  exact ⟨mn, hmn, e ▸ h.slots_legal hp j (h.candidates hp key j hj)⟩

theorem State.Inv.insert_answers {s : State} (h : s.Inv) (hp : s.phase ≠ .idle) (freq : Word) (key : Key) :
    ∃ t, s.insert freq key = .ok t := by
  obtain ⟨mn, hmn, _⟩ := h.minCandidate hp key
  obtain ⟨t, ht⟩ :=
    State.raiseSlots_of (new := BitVec.ofNat 31 (satAdd s.cap mn freq.toNat)) (h.candidates hp key)
  exact ⟨t, by simp only [State.insert, hmn, ht]⟩

/-- A raised candidate slot is the larger of its value and the saturated sum. -/
theorem State.raised_toNat (s : State) (mn f : Nat) (v : Slot) :
    (if v ≤ BitVec.ofNat 31 (satAdd s.cap mn f) then BitVec.ofNat 31 (satAdd s.cap mn f) else v).toNat =
      max v.toNat (satAdd s.cap mn f) := by
  have e := s.satAdd_toNat mn f
  by_cases h : v ≤ BitVec.ofNat 31 (satAdd s.cap mn f)
  · rw [if_pos h, e]
    have : v.toNat ≤ (BitVec.ofNat 31 (satAdd s.cap mn f)).toNat := h
    omega
  · rw [if_neg h]
    have : ¬ v.toNat ≤ (BitVec.ofNat 31 (satAdd s.cap mn f)).toNat := h
    omega

/-- Everything an insertion does, slot by slot (41_filter R89). -/
theorem State.insert_slots {s t : State} {freq : Word} {key : Key} (h : s.insert freq key = .ok t) :
    ∃ mn, s.minCandidate key = .ok mn ∧ t = { s with slots := t.slots } ∧
      (∀ j ∈ s.candidates key, (t.slot j).toNat = max (s.slot j).toNat (satAdd s.cap mn freq.toNat)) ∧
      (∀ j, j ∉ s.candidates key → t.slot j = s.slot j) ∧
      (s.slots.wf = true → t.slots.wf = true) ∧ (∀ c ∈ t.slots, c ∈ s.slots ∨ c.1 ∈ s.candidates key) ∧
      ∀ j, (s.slots.read j).isSome = true → (t.slots.read j).isSome = true := by
  obtain ⟨mn, hmn, hr⟩ := State.insert_ok h
  obtain ⟨h1, _, h3, h4, h5, h6⟩ := State.raiseSlots_ok hr
  exact ⟨mn, hmn, h1, fun j hj => by rw [h3, if_pos hj, State.raised_toNat],
    fun j hj => by rw [h3, if_neg hj], h4, h5, h6⟩

theorem State.insert_frame {s t : State} {freq : Word} {key : Key} (h : s.insert freq key = .ok t) :
    t.phase = s.phase ∧ t.w = s.w ∧ t.k = s.k ∧ t.m = s.m ∧ t.resets = s.resets ∧ t.inbox = s.inbox ∧
      t.responses = s.responses := by
  obtain ⟨_, _, e, _⟩ := State.insert_slots h
  rw [e]
  exact ⟨rfl, rfl, rfl, rfl, rfl, rfl, rfl⟩

theorem State.Inv.insert {s t : State} {freq : Word} {key : Key} (h : s.Inv) (hp : s.phase ≠ .idle)
    (ht : s.insert freq key = .ok t) : t.Inv := by
  obtain ⟨mn, _, _, hin, hout, h4, h5, h6⟩ := State.insert_slots ht
  obtain ⟨p1, p2, p3, p4, _⟩ := State.insert_frame ht
  have pc : t.cap = s.cap := by unfold State.cap; rw [p2]
  refine ⟨h4 h.1, ?_, ?_, ?_, ?_, ?_, ?_, ?_⟩
  · intro c hc
    rcases h5 c hc with h1 | h1
    · exact h.2 c h1
    · have h2 := h.candidates hp key _ h1
      have h7 := (h.size_legal hp).2
      omega
  · rw [p1]; exact fun h0 => absurd h0 hp
  · rw [p1, p2]; exact h.4
  · rw [p1, p3]; exact h.5
  · rw [p1, p4]; exact h.6
  · rw [p4, pc]
    intro _ j hj
    have hle := h.slots_legal hp j hj
    by_cases hc : j ∈ s.candidates key
    · rw [hin j hc]
      exact Nat.max_le.mpr ⟨hle, satAdd_le ..⟩
    · rw [hout j hc]; exact hle
  · rw [p4]
    exact fun _ j hj => h6 j (h.slots_written hp j hj)

end Sys2Proof.Machine
end

