-- ==== Sys2Proof/Laws/PerInstr.lean ====
section
/-! SUPPORT. Statements for all commands, made per command: the first byte of a command's packet is its opcode, which
selects its format (30_encoding R41, R52), and the decoder hands the bytes after it to that format's reader. -/

namespace Sys2Proof.Laws.OpcodeByte

/-- The packet of the command starts with its own opcode, and decoding reads its operand bytes by that opcode. -/
def Statement (i : Instr) : Prop :=
  encode i = i.opcode.code :: i.operandBytes ∧
    decode (encode i) = endOfPacket (readOperands i.opcode i.operandBytes)

theorem all (i : Instr) : Statement i := ⟨rfl, by simp only [encode, decode, Opcode.ofByte_code]⟩

theorem hash (seed : Word) (key : Key) : Statement (.hash seed key) := all _
theorem sbfInit (n : Word) (p : F64) (w : Byte) : Statement (.sbfInit n p w) := all _
theorem sbfCfg (m k : Word) (w : Byte) : Statement (.sbfCfg m k w) := all _
theorem sbfInsert (freq : Word) (key : Key) : Statement (.sbfInsert freq key) := all _
theorem sbfSeal : Statement .sbfSeal := all _
theorem sbfQuery (key : Key) : Statement (.sbfQuery key) := all _
theorem sbfInfo : Statement .sbfInfo := all _
theorem sbfExport : Statement .sbfExport := all _
theorem b15Enc (bits : Bits) : Statement (.b15Enc bits) := all _
theorem b15Dec (text : Text) : Statement (.b15Dec text) := all _

end Sys2Proof.Laws.OpcodeByte
end

