-- ==== Sys2Proof/Laws/Sizing.lean ====
section
/-! SUPPORT. The enclosure of the logarithm is one: `lnLower ≤ lnUnit · ln(c/d) ≤ lnUpper`; and the ceilings of the
sizing rule are the real ceilings. -/

namespace Sys2Proof.Machine

/-- A rounded-down series stays below the series. -/
theorem artanhSum_le (a b : Nat) (z U : ℝ) (hz : (a : ℝ) = z * b) (hb : 0 < b) :
    ∀ (n i t : Nat), (t : ℝ) ≤ U * z ^ (2 * i + 1) →
      (artanhSum a b n i t : ℝ) ≤ U * ∑ j ∈ Finset.range n, z ^ (2 * (i + j) + 1) / (2 * ((i + j : Nat) : ℝ) + 1) := by
  intro n
  induction n with
  | zero => intro i t _; simp [artanhSum]
  | succ n ih =>
    intro i t ht
    have hb' : (0 : ℝ) < b := by exact_mod_cast hb
    have hi : (0 : ℝ) < 2 * (i : ℝ) + 1 := by positivity
    have hterm : ((t / (2 * i + 1) : Nat) : ℝ) ≤ U * (z ^ (2 * i + 1) / (2 * (i : ℝ) + 1)) := by
      calc ((t / (2 * i + 1) : Nat) : ℝ) ≤ (t : ℝ) / ((2 * i + 1 : Nat) : ℝ) := Nat.cast_div_le
        _ = (t : ℝ) / (2 * (i : ℝ) + 1) := by push_cast; rfl
        _ ≤ (U * z ^ (2 * i + 1)) / (2 * (i : ℝ) + 1) := by gcongr
        _ = _ := by ring
    have hnext : ((t * (a * a) / (b * b) : Nat) : ℝ) ≤ U * z ^ (2 * (i + 1) + 1) := by
      calc ((t * (a * a) / (b * b) : Nat) : ℝ) ≤ ((t * (a * a) : Nat) : ℝ) / ((b * b : Nat) : ℝ) := Nat.cast_div_le
        _ = (t : ℝ) * z ^ 2 := by push_cast; rw [hz]; field_simp
        _ ≤ (U * z ^ (2 * i + 1)) * z ^ 2 := by gcongr
        _ = _ := by ring
    have := ih (i + 1) _ hnext
    rw [artanhSum, Nat.cast_add, Finset.sum_range_succ', mul_add, add_comm]
    refine add_le_add ?_ (by simpa using hterm)
    refine this.trans_eq ?_
    congr 1
    apply Finset.sum_congr rfl
    intro j _
    rw [show i + 1 + j = i + (j + 1) by ring]

/-- It stays above the series less 3 units a term. -/
theorem le_artanhSum (a b : Nat) (z U : ℝ) (hz : (a : ℝ) = z * b) (hb : 0 < b) (hz0 : 0 ≤ z) (hz1 : z ≤ 1 / 3) :
    ∀ (n i t : Nat), U * z ^ (2 * i + 1) ≤ t + 2 →
      U * ∑ j ∈ Finset.range n, z ^ (2 * (i + j) + 1) / (2 * ((i + j : Nat) : ℝ) + 1)
        ≤ artanhSum a b n i t + 3 * n := by
  intro n
  induction n with
  | zero => intro i t _; simp [artanhSum]
  | succ n ih =>
    intro i t ht
    have hb' : (0 : ℝ) < b := by exact_mod_cast hb
    have hi : (1 : ℝ) ≤ 2 * (i : ℝ) + 1 := by have : (0 : ℝ) ≤ i := Nat.cast_nonneg i; linarith
    have floor_gt : ∀ x y : Nat, 0 < y → (x : ℝ) / y - 1 < ((x / y : Nat) : ℝ) := by
      intro x y hy
      have := Nat.lt_floor_add_one ((x : ℝ) / y)
      rw [Nat.floor_div_eq_div] at this
      linarith
    have hterm : U * (z ^ (2 * i + 1) / (2 * (i : ℝ) + 1)) ≤ ((t / (2 * i + 1) : Nat) : ℝ) + 3 := by
      have h1 := floor_gt t (2 * i + 1) (by omega)
      push_cast at h1
      have h2 : U * z ^ (2 * i + 1) / (2 * (i : ℝ) + 1) ≤ ((t : ℝ) + 2) / (2 * (i : ℝ) + 1) := by gcongr
      have h3 : (2 : ℝ) / (2 * (i : ℝ) + 1) ≤ 2 := div_le_self (by norm_num) hi
      have h4 : ((t : ℝ) + 2) / (2 * (i : ℝ) + 1) = t / (2 * (i : ℝ) + 1) + 2 / (2 * (i : ℝ) + 1) := add_div ..
      rw [← mul_div_assoc]
      linarith
    have hnext : U * z ^ (2 * (i + 1) + 1) ≤ ((t * (a * a) / (b * b) : Nat) : ℝ) + 2 := by
      have h1 := floor_gt (t * (a * a)) (b * b) (by positivity)
      have h2 : (((t * (a * a) : Nat) : ℝ)) / ((b * b : Nat) : ℝ) = (t : ℝ) * z ^ 2 := by
        push_cast; rw [hz]; field_simp
      rw [h2] at h1
      have hz2 : z ^ 2 ≤ 1 / 9 := by nlinarith
      have h3 : U * z ^ (2 * (i + 1) + 1) ≤ ((t : ℝ) + 2) * z ^ 2 := by
        calc U * z ^ (2 * (i + 1) + 1) = (U * z ^ (2 * i + 1)) * z ^ 2 := by ring
          _ ≤ _ := by gcongr
      nlinarith
    have := ih (i + 1) _ hnext
    rw [artanhSum, Nat.cast_add, Finset.sum_range_succ', mul_add]
    have hsum : ∑ j ∈ Finset.range n, z ^ (2 * (i + (j + 1)) + 1) / (2 * ((i + (j + 1) : Nat) : ℝ) + 1)
        = ∑ j ∈ Finset.range n, z ^ (2 * (i + 1 + j) + 1) / (2 * ((i + 1 + j : Nat) : ℝ) + 1) := by
      apply Finset.sum_congr rfl
      intro j _
      rw [show i + 1 + j = i + (j + 1) by ring]
    rw [hsum]
    have hterm' : U * (z ^ (2 * (i + 0) + 1) / (2 * ((i + 0 : Nat) : ℝ) + 1))
        ≤ ((t / (2 * i + 1) : Nat) : ℝ) + 3 := by simpa using hterm
    push_cast at *
    linarith

/-- What 48 terms leave of the series is below one unit. -/
theorem artanh_tail {z : ℝ} (hz0 : 0 ≤ z) (hz1 : z ≤ 1 / 3) :
    (2 : ℝ) ^ 128 * (z ^ (2 * 48 + 1) / (1 - z ^ 2)) ≤ 1 := by
  have hz2 : z ^ 2 ≤ 1 / 9 := by nlinarith
  have h97 : z ^ (2 * 48 + 1) ≤ (1 / 3) ^ (2 * 48 + 1) := pow_le_pow_left₀ hz0 hz1 _
  have hden : (8 : ℝ) / 9 ≤ 1 - z ^ 2 := by linarith
  have hq : z ^ (2 * 48 + 1) / (1 - z ^ 2) ≤ (1 / 3) ^ (2 * 48 + 1) / (8 / 9) :=
    div_le_div₀ (by positivity) h97 (by norm_num) hden
  calc (2 : ℝ) ^ 128 * (z ^ (2 * 48 + 1) / (1 - z ^ 2))
      ≤ 2 ^ 128 * ((1 / 3) ^ (2 * 48 + 1) / (8 / 9)) := mul_le_mul_of_nonneg_left hq (by positivity)
    _ ≤ 1 := by norm_num

/-- The first term of the series, rounded down. -/
theorem first_term (u a b : Nat) (z : ℝ) (hz : (a : ℝ) = z * b) (hb : 0 < b) :
    ((u * a / b : Nat) : ℝ) ≤ u * z ^ (2 * 0 + 1) ∧ (u : ℝ) * z ^ (2 * 0 + 1) ≤ ((u * a / b : Nat) : ℝ) + 2 := by
  have hb' : (0 : ℝ) < b := by exact_mod_cast hb
  have e : ((u * a : Nat) : ℝ) / (b : ℝ) = u * z ^ (2 * 0 + 1) := by
    rw [Nat.cast_mul, hz]; field_simp; ring
  constructor
  · rw [← e]; exact Nat.cast_div_le
  · have := Nat.lt_floor_add_one (((u * a : Nat) : ℝ) / (b : ℝ))
    rw [Nat.floor_div_eq_div, e] at this
    linarith

/-- `ln(c/d) = 2·artanh((c−d)/(c+d))`, with the first 48 terms on either side (41_filter R70). -/
theorem ln_enclosed {c d : Nat} (hd : 0 < d) (h1 : d ≤ c) (h2 : c ≤ 2 * d) :
    (lnLower c d : ℝ) ≤ lnUnit * Real.log ((c : ℝ) / d) ∧ lnUnit * Real.log ((c : ℝ) / d) ≤ lnUpper c d := by
  have hd' : (0 : ℝ) < d := by exact_mod_cast hd
  have hc' : (d : ℝ) ≤ c := by exact_mod_cast h1
  have h2' : (c : ℝ) ≤ 2 * d := by exact_mod_cast h2
  have hcd : (0 : ℝ) < c + d := by linarith
  obtain ⟨z, hz⟩ : ∃ z : ℝ, z = ((c : ℝ) - d) / (c + d) := ⟨_, rfl⟩
  have hz0 : 0 ≤ z := hz ▸ div_nonneg (by linarith) hcd.le
  have hz1 : z ≤ 1 / 3 := by rw [hz, div_le_iff₀ hcd]; linarith
  have hratio : (1 + z) / (1 - z) = (c : ℝ) / d := by
    have e1 : 1 + z = 2 * c / (c + d) := by rw [hz]; field_simp; ring
    have e2 : 1 - z = 2 * d / (c + d) := by rw [hz]; field_simp; ring
    rw [e1, e2]; field_simp
  have hza : ((c - d : Nat) : ℝ) = z * ((c + d : Nat) : ℝ) := by
    rw [Nat.cast_sub h1, Nat.cast_add, hz]; field_simp
  have hsumlo := Real.sum_range_le_log_div hz0 (by linarith : z < 1) 48
  have hsumhi := Real.log_div_le_sum_range_add hz0 (by linarith : z < 1) 48
  rw [hratio] at hsumlo hsumhi
  obtain ⟨ht, ht'⟩ := first_term lnUnit (c - d) (c + d) z hza (by omega)
  have hlo := artanhSum_le (c - d) (c + d) z lnUnit hza (by omega) 48 0 _ ht
  have hhi := le_artanhSum (c - d) (c + d) z lnUnit hza (by omega) hz0 hz1 48 0 _ ht'
  simp only [Nat.zero_add] at hlo hhi
  have hunit : (lnUnit : ℝ) = 2 ^ 128 := by norm_num [lnUnit]
  have htail := artanh_tail hz0 hz1
  rw [← hunit] at htail
  have hU : (0 : ℝ) ≤ (lnUnit : ℝ) := Nat.cast_nonneg _
  have hmul1 := mul_le_mul_of_nonneg_left hsumlo hU
  have hmul2 := mul_le_mul_of_nonneg_left hsumhi hU
  rw [mul_add] at hmul2
  have hl : (lnLower c d : ℝ) =
      2 * (artanhSum (c - d) (c + d) 48 0 (lnUnit * (c - d) / (c + d)) : ℝ) := by
    rw [lnLower, Nat.cast_mul, Nat.cast_ofNat]
  have hu : (lnUpper c d : ℝ) = lnLower c d + 512 := by
    rw [lnUpper, Nat.cast_add, lnSlack, Nat.cast_ofNat]
  have h48 : (3 : ℝ) * ((48 : Nat) : ℝ) = 144 := by norm_num
  rw [h48] at hhi
  have e : (lnUnit : ℝ) * (1 / 2 * Real.log ((c : ℝ) / d)) = (lnUnit * Real.log ((c : ℝ) / d)) / 2 := by ring
  rw [e] at hmul1 hmul2
  rw [hu, hl]
  constructor <;> linarith

/-- `ceilDiv` is the ceiling of the quotient. -/
theorem ceilDiv_eq (a b : Nat) (hb : 0 < b) : (ceilDiv a b : Int) = ⌈(a : ℝ) / b⌉ := by
  have hb' : (0 : ℝ) < b := by exact_mod_cast hb
  symm
  rw [Int.ceil_eq_iff]
  have h1 : ceilDiv a b * b < a + b := by
    unfold ceilDiv
    have := Nat.div_mul_le_self (a + b - 1) b
    omega
  have h2 : a ≤ ceilDiv a b * b := by
    unfold ceilDiv
    have := Nat.lt_div_mul_add (a := a + b - 1) hb
    omega
  have h1' : ((ceilDiv a b : Nat) : ℝ) * b < a + b := by exact_mod_cast h1
  have h2' : (a : ℝ) ≤ ((ceilDiv a b : Nat) : ℝ) * b := by exact_mod_cast h2
  constructor
  · rw [lt_div_iff₀ hb']; push_cast; linarith
  · rw [div_le_iff₀ hb']; push_cast; linarith

/-- An implementation's choice stays between its bounds. -/
theorem within_bounds {lo hi : Nat} (choice : Nat) (h : lo ≤ hi) :
    lo ≤ within lo hi choice ∧ within lo hi choice ≤ hi := by
  unfold within
  split
  · omega
  · have := Nat.mod_lt choice (show 0 < hi - lo + 1 by omega)
    omega

theorem within_eq {lo hi : Nat} (choice : Nat) (h : hi ≤ lo) : within lo hi choice = lo := if_pos h

end Sys2Proof.Machine
end

