-- ==== Sys2Proof/Laws/Rate.lean ====
section
/-! SUPPORT. The parts of a rate that passes its check, the enclosure of `−ln p`, and the bounds of the hash count. -/

namespace Sys2Proof.Machine

theorem significand_lt (p : F64) : F64.significand p < 2 ^ 53 := by
  unfold F64.significand F64.fraction
  have := Nat.mod_lt p.toNat (show 0 < 2 ^ 52 by norm_num)
  split <;> omega

theorem sign_iff (p : F64) : F64.sign p = true ↔ p.toNat / 2 ^ 63 = 1 := by
  have h2 : p.toNat / 2 ^ 63 < 2 := by have := p.isLt; omega
  simp only [F64.sign, BitVec.getLsbD, Nat.testBit_eq_decide_div_mod_eq, decide_eq_true_eq]
  rw [Nat.mod_eq_of_lt h2]

/-- What the rate check says of the parts (41_filter R71). -/
theorem rateOk_parts {p : F64} (h : rateOk p = true) :
    F64.sign p = false ∧ 0 < F64.significand p ∧ F64.significand p * 2 ^ F64.scale p ≤ 2 ^ 1075 := by
  simp only [rateOk, Bool.and_eq_true, decide_eq_true_eq, Bool.not_eq_true'] at h
  exact ⟨h.1.1.1, h.1.2, h.2⟩

theorem rateDen_le {p : F64} (h : rateOk p = true) :
    rateDen p ≤ F64.significand p ∧ F64.significand p ≤ 2 * rateDen p ∧ 0 < rateDen p := by
  obtain ⟨_, h1, _⟩ := rateOk_parts h
  refine ⟨Nat.log2_self_le h1.ne', ?_, by unfold rateDen; positivity⟩
  have := Nat.lt_log2_self (n := F64.significand p)
  unfold rateDen
  rw [pow_succ] at this
  omega

theorem rateShift_le (p : F64) : rateShift p ≤ 1075 := by unfold rateShift; omega

theorem ln_two_enclosed :
    (lnLower 2 1 : ℝ) ≤ lnUnit * Real.log 2 ∧ lnUnit * Real.log 2 ≤ lnLower 2 1 + 512 := by
  have := ln_enclosed (c := 2) (d := 1) (by norm_num) (by norm_num) (by norm_num)
  simpa [lnUpper, lnSlack] using this

/-- `−ln p` of a rate that passes its check, by the parts of `p = (c/d)·2^-s`: enclosed, within 551 thousand units. -/
theorem negLn_enclosed {p : F64} (h : rateOk p = true) {x : ℝ} (hx0 : 0 ≤ x)
    (hx : x = lnUnit * (rateShift p * Real.log 2 - Real.log ((F64.significand p : ℝ) / (rateDen p : ℝ)))) :
    ((negLnLower p : ℝ) ≤ x ∧ x ≤ negLnUpper p) ∧ x - 1076 * 512 ≤ negLnLower p ∧
      (negLnUpper p : ℝ) ≤ x + 1076 * 512 := by
  obtain ⟨d1, d2, d3⟩ := rateDen_le h
  have hc := ln_enclosed d3 d1 d2
  have hl := ln_two_enclosed
  have hs : ((rateShift p : ℕ) : ℝ) ≤ 1075 := by exact_mod_cast rateShift_le p
  have hs0 : (0 : ℝ) ≤ rateShift p := Nat.cast_nonneg _
  have e : x = rateShift p * (lnUnit * Real.log 2) -
      lnUnit * Real.log ((F64.significand p : ℝ) / (rateDen p : ℝ)) := by rw [hx]; ring
  have hu : (lnUpper (F64.significand p) (rateDen p) : ℝ) = lnLower (F64.significand p) (rateDen p) + 512 := by
    rw [lnUpper, lnSlack]; push_cast; ring
  have hu2 : (lnUpper 2 1 : ℝ) = lnLower 2 1 + 512 := by rw [lnUpper, lnSlack]; push_cast; ring
  rw [hu] at hc
  have m1 : (rateShift p : ℝ) * lnLower 2 1 ≤ rateShift p * (lnUnit * Real.log 2) :=
    mul_le_mul_of_nonneg_left hl.1 hs0
  have m2 : (rateShift p : ℝ) * (lnUnit * Real.log 2) ≤ rateShift p * (lnLower 2 1 + 512) :=
    mul_le_mul_of_nonneg_left hl.2 hs0
  have m3 : (rateShift p : ℝ) * 512 ≤ 1075 * 512 := by nlinarith
  have sub_ge : ∀ a b : ℕ, (a : ℝ) - b ≤ ((a - b : ℕ) : ℝ) := fun a b => by
    rw [sub_le_iff_le_add]; exact_mod_cast (by omega : a ≤ a - b + b)
  have sub_le : ∀ a b : ℕ, ∀ y : ℝ, 0 ≤ y → (a : ℝ) - b ≤ y → ((a - b : ℕ) : ℝ) ≤ y := fun a b y hy hab => by
    rcases Nat.le_total b a with hba | hba
    · rwa [Nat.cast_sub hba]
    · rw [Nat.sub_eq_zero_of_le hba]; simpa using hy
  refine ⟨⟨?_, ?_⟩, ?_, ?_⟩
  · refine sub_le _ _ _ hx0 ?_
    push_cast; rw [hu, e]; linarith
  · refine le_trans ?_ (sub_ge _ _)
    push_cast; rw [hu2, e]; linarith
  · refine le_trans ?_ (sub_ge _ _)
    push_cast; rw [hu, e]; linarith
  · refine sub_le _ _ _ (by linarith) ?_
    push_cast; rw [hu2, e]; linarith

/-! ## The hash count -/

theorem hashCountLower_le (n m : Nat) : hashCountLower n m ≤ hashCountUpper n m := by
  unfold hashCountLower hashCountUpper ceilDiv
  apply Nat.div_le_div_right
  have : m * lnLower 2 1 * (sizingMargin - 1) ≤ m * lnUpper 2 1 * (sizingMargin + 1) :=
    Nat.mul_le_mul (Nat.mul_le_mul_left _ (Nat.le_add_right _ _)) (by omega)
  omega

/-- `(m/n)·ln 2` is below `m`, also with the margin. -/
theorem hashCountUpper_le (n m : Nat) (hn : 1 ≤ n) : hashCountUpper n m ≤ m + 1 := by
  unfold hashCountUpper ceilDiv
  have h1 : lnUpper 2 1 * (sizingMargin + 1) ≤ lnUnit * sizingMargin := by decide +kernel
  have hpos : 0 < n * lnUnit * sizingMargin := Nat.mul_pos (Nat.mul_pos hn (by decide)) (by decide)
  have : m * lnUpper 2 1 * (sizingMargin + 1) ≤ m * (n * lnUnit * sizingMargin) := by
    calc m * lnUpper 2 1 * (sizingMargin + 1) = m * (lnUpper 2 1 * (sizingMargin + 1)) := by ring
      _ ≤ m * (lnUnit * sizingMargin) := Nat.mul_le_mul_left _ h1
      _ ≤ m * (n * lnUnit * sizingMargin) := by
        apply Nat.mul_le_mul_left
        rw [Nat.mul_assoc]
        exact Nat.le_mul_of_pos_left _ hn
  generalize n * lnUnit * sizingMargin = d at *
  apply Nat.le_of_lt_succ
  rw [Nat.div_lt_iff_lt_mul hpos]
  have : (m + 1 + 1) * d = m * d + d + d := by ring
  show _ < (m + 1 + 1) * d
  omega

/-- At least one hash whenever there is a slot (41_filter R70). -/
theorem one_le_hashCountLower (n m : Nat) (hn : 1 ≤ n) (hm : 1 ≤ m) : 1 ≤ hashCountLower n m := by
  unfold hashCountLower ceilDiv
  have hl : 1 ≤ lnLower 2 1 := by decide +kernel
  have : 1 ≤ m * lnLower 2 1 * (sizingMargin - 1) := Nat.mul_pos (Nat.mul_pos hm hl) (by decide)
  rw [Nat.one_le_div_iff]
  · omega
  · exact Nat.mul_pos (Nat.mul_pos hn (by decide)) (by decide)

theorem toNat_pos_of_ne_zero {n : Word} (hn : n ≠ 0) : 1 ≤ n.toNat := by
  rcases Nat.eq_zero_or_pos n.toNat with h0 | h0
  · exact absurd (BitVec.eq_of_toNat_eq (by simpa using h0)) hn
  · exact h0

/-- The hash count of a filter that fits is a positive 32-bit number. -/
theorem sizingK_bounds {n : Word} {p : F64} (hn : n ≠ 0) (h0 : 1 ≤ sizingM n p) (h : sizingM n p ≤ Config.mMax) :
    1 ≤ sizingK n p ∧ sizingK n p < 2 ^ 32 := by
  have hn1 := toNat_pos_of_ne_zero hn
  have h1 := within_bounds (Config.hashCountChoice n p) (hashCountLower_le n.toNat (sizingM n p))
  have h2 := hashCountUpper_le n.toNat (sizingM n p) hn1
  have h3 := one_le_hashCountLower n.toNat (sizingM n p) hn1 h0
  have := Config.mMax_le
  unfold sizingK
  omega

end Sys2Proof.Machine
end

