-- ==== Sys2Proof/Machine/Asm.lean ====
section
/-! DEFINITION. The textual form of a command (30_encoding R54), as it is written in 95_test_vectors. It has no effect
on the machine. Where the rule allows several spellings, one is used (log 12). -/

namespace Sys2Proof.Machine

/-- The hexadecimal digit of `d < 16`. -/
def hexDigit (d : Nat) : String := ((["0", "1", "2", "3", "4", "5", "6", "7", "8", "9", "A", "B", "C", "D", "E", "F"])[d % 16]?).getD ""

/-- `n` hexadecimal digits of `v`. -/
def hexDigits : Nat → Nat → String
  | 0, _ => ""
  | n + 1, v => hexDigits n (v / 16) ++ hexDigit v

/-- A key as `x"…"` with hexadecimal byte pairs; the empty key as `""`. -/
def keyText (key : Key) : String :=
  if key = [] then "\"\"" else "x\"" ++ String.join (key.map fun b => hexDigits 2 b.toNat) ++ "\""

/-- A bit string as `b"0110…"`. -/
def bitsText (s : Bits) : String := "b\"" ++ String.join (s.map fun b => if b then "1" else "0") ++ "\""

/-- A text as `t[cp, cp, …]` with code points in hexadecimal. -/
def textText (t : Text) : String :=
  "t[" ++ String.intercalate ", " (t.map fun c => "0x" ++ hexDigits 4 c.toNat) ++ "]"

/-- The decimal digits of `r/d < 1`, to at most `n` places, without trailing zeros. -/
def fractionDigits : Nat → Nat → Nat → String
  | 0, _, _ => ""
  | n + 1, r, d => if r = 0 then "" else toString (r * 10 / d) ++ fractionDigits n (r * 10 % d) d

/-- A rate as a decimal literal. A binary64 number has a finite decimal expansion, so the literal is exact; it
denotes the nearest binary64, which is the datum itself. DESIGN CHOICE (log 12): R54 writes a rate "as a decimal
literal" and says nothing of a datum that no decimal literal denotes; 95_test_vectors V-E7 writes one NaN as `NaN`. The
model writes every NaN datum so, without its sign and its fraction bits, and an infinity as `inf` or `-inf`. -/
def rateText (p : F64) : String :=
  let sign := if F64.sign p then "-" else ""
  if F64.isFinite p then
    let v := F64.significand p * 2 ^ F64.scale p
    sign ++ toString (v / 2 ^ 1075) ++ "." ++
      (if v % 2 ^ 1075 = 0 then "0" else fractionDigits 1075 (v % 2 ^ 1075) (2 ^ 1075))
  else if F64.fraction p = 0 then sign ++ "inf" else "NaN"

/-- The mnemonic, then `name=value` operands separated by commas, in packet order (R54). -/
def asm : Instr → String
  | .hash seed key => "HASH seed=0x" ++ hexDigits 8 seed.toNat ++ ", key=" ++ keyText key
  | .sbfInit n p w =>
    "SBF_INIT n=" ++ toString n.toNat ++ ", p=" ++ rateText p ++ ", w=" ++ toString w.toNat
  | .sbfCfg m k w =>
    "SBF_CFG m=" ++ toString m.toNat ++ ", k=" ++ toString k.toNat ++ ", w=" ++ toString w.toNat
  | .sbfInsert freq key => "SBF_INSERT freq=" ++ toString freq.toNat ++ ", key=" ++ keyText key
  | .sbfSeal => "SBF_SEAL"
  | .sbfQuery key => "SBF_QUERY key=" ++ keyText key
  | .sbfInfo => "SBF_INFO"
  | .sbfExport => "SBF_EXPORT"
  | .b15Enc bits => "B15_ENC bits=" ++ bitsText bits
  | .b15Dec text => "B15_DEC text=" ++ textText text

/-- The name of a status in a written response (60_exceptions R110). -/
def statusName (b : Byte) : String :=
  if b = 0x00 then "OK"
  else if b = 0x01 then "InvalidParameter"
  else if b = 0x02 then "EmptyInput"
  else if b = 0x03 then "DecodeError"
  else if b = 0x04 then "WrongPhase"
  else "IllegalCommand"

/-- A `u32` result as `name=value`, in decimal. -/
def u32Text (name : String) (field : Packet) : String := name ++ "=" ++ toString (leNat field)

/-- The result fields of an OK response, in the order of R49. -/
def resultText (o : Opcode) (fields : Packet) : String :=
  match o with
  | .hash => " digest=0x" ++ hexDigits 8 (leNat fields)
  | .sbfInit => " " ++ u32Text "m" (fields.take 4) ++ ", " ++ u32Text "k" (fields.drop 4)
  | .sbfCfg => ""
  | .sbfInsert => ""
  | .sbfSeal => ""
  | .sbfQuery => " " ++ u32Text "freq" fields
  | .sbfInfo =>
    " " ++ u32Text "n_hash_functions" (fields.take 4) ++ ", " ++ u32Text "width" ((fields.drop 4).take 4) ++
      ", " ++ u32Text "size" (fields.drop 8)
  | .sbfExport =>
    match takeBits fields with
    | .ok (s, _) => " counters=" ++ bitsText s
    | .error _ => ""
  | .b15Enc =>
    match takeText fields with
    | .ok (t, _) => " text=" ++ textText t
    | .error _ => ""
  | .b15Dec =>
    match takeBits fields with
    | .ok (s, _) => " bits=" ++ bitsText s
    | .error _ => ""

/-- A response is written `-> OK name=value, …` or `-> <StatusName>` (R54). -/
def responseText (o : Opcode) : Packet → String
  | [] => ""
  | status :: fields => "-> " ++ statusName status ++ (if status = 0x00 then resultText o fields else "")

end Sys2Proof.Machine
end

