-- ==== Sys2Proof/Tests/Slice0.lean ====
section
/-! SUPPORT. The model's own tests. Expected results are those of spec/95_test_vectors, whose row each test names. Then,
for every obligation with hypotheses, a witness that meets them, one for each clause and at its boundary values. -/

namespace Sys2Proof.Tests

open Sys2Proof.Machine Sys2Proof.Spec

/-! ## WellFormed refuses each length beyond its limit (30_encoding R56) -/

theorem test_wf_refuses_long_hash_key : (Instr.hash 0 (List.replicate (2 ^ 32) 0)).wf = false := by
  rw [Instr.wf, List.length_replicate]; rfl

theorem test_wf_refuses_long_insert_key : (Instr.sbfInsert 1 (List.replicate (2 ^ 32) 0)).wf = false := by
  rw [Instr.wf, List.length_replicate]; rfl

theorem test_wf_refuses_long_query_key : (Instr.sbfQuery (List.replicate (2 ^ 32) 0)).wf = false := by
  rw [Instr.wf, List.length_replicate]; rfl

theorem test_wf_refuses_long_bits : (Instr.b15Enc (List.replicate (2 ^ 32) true)).wf = false := by
  rw [Instr.wf, List.length_replicate]; rfl

theorem test_wf_refuses_long_text : (Instr.b15Dec (List.replicate 286331155 0x30)).wf = false := by
  rw [Instr.wf, List.length_replicate]; rfl

/-! ## Words written out from the spec's encodings -/

/-- V-H11. -/
theorem test_decode_hash :
    decode [0x01, 1, 0, 0, 0, 5, 0, 0, 0, 0x48, 0x65, 0x6C, 0x6C, 0x6F] =
      .ok (.hash 1 [0x48, 0x65, 0x6C, 0x6C, 0x6F]) := by decide

/-- V-E9. -/
theorem test_decode_sbfInit :
    decode [0x10, 0, 0, 0, 0, 0x7B, 0x14, 0xAE, 0x47, 0xE1, 0x7A, 0x84, 0x3F, 0] =
      .ok (.sbfInit 0 0x3F847AE147AE147B 0) := by decide

/-- V-E13. -/
theorem test_decode_sbfCfg : decode [0x11, 5, 0, 0, 0, 0, 0, 0, 0, 2] = .ok (.sbfCfg 5 0 2) := by decide

/-- P2 step 7. -/
theorem test_decode_sbfInsert :
    decode [0x12, 0xFF, 0xFF, 0xFF, 0xFF, 1, 0, 0, 0, 0x79] = .ok (.sbfInsert 4294967295 [0x79]) := by decide

/-- P2 step 9. -/
theorem test_decode_sbfSeal : decode [0x13] = .ok .sbfSeal := by decide

/-- P1 step 9. -/
theorem test_decode_sbfQuery : decode [0x14, 1, 0, 0, 0, 0x7A] = .ok (.sbfQuery [0x7A]) := by decide

/-- P2 step 16. -/
theorem test_decode_sbfInfo : decode [0x15] = .ok .sbfInfo := by decide

/-- P2 step 17. -/
theorem test_decode_sbfExport : decode [0x16] = .ok .sbfExport := by decide

/-- V-C7. -/
theorem test_decode_b15Enc : decode [0x20, 3, 0, 0, 0, 0xA0] = .ok (.b15Enc [true, false, true]) := by decide

/-- V-C31. -/
theorem test_decode_b15Dec :
    decode [0x21, 3, 0, 0, 0, 0x30, 0, 0xA1, 0, 0x20, 0] = .ok (.b15Dec [0x30, 0xA1, 0x20]) := by decide

/-- V-E10. -/
theorem test_decode_illegal_opcode : decode [0x7F] = .error (.illegalOpcode 0x7F) := by decide

/-- V-E11. -/
theorem test_decode_trailing_byte : decode [0x13, 0] = .error .trailingBytes := by decide

/-- V-E12. -/
theorem test_decode_truncated : decode [0x01, 0, 0, 0, 0, 2, 0, 0, 0, 0x61] = .error .truncated := by decide

/-- 30_encoding R51: the empty packet. -/
theorem test_decode_empty : decode [] = .error .emptyPacket := by decide

/-- 30_encoding R51: a character count of 286331155. -/
theorem test_decode_long_text : decode [0x21, 0x13, 0x11, 0x11, 0x11] = .error .textTooLong := by decide

/-- The packets of V-C14 and V-C33 written by the encoder. -/
theorem test_encode_codec :
    encode (.b15Enc [true, false, true, true, false, false, true]) = [0x20, 7, 0, 0, 0, 0xB2] ∧
      encode (.b15Dec [0x38, 0x59A1]) = [0x21, 2, 0, 0, 0, 0x38, 0, 0xA1, 0x59] := by decide

/-- The opcode table's numbering, with the operand bytes that the table gives no bits zero. -/
theorem test_decodeTableWord :
    decodeTableWord 8 0x14 = some (.sbfQuery []) ∧ decodeTableWord 48 0x610000000114 = some (.sbfQuery [0x61]) ∧
      decodeTableWord 8 0x00 = none := by decide

/-! ## One step of each command, as the host sees it -/

/-- The response to a packet presented in a state. -/
def answer (s : State) (p : Packet) : Option Packet :=
  match step (s.present p) with
  | .next t => t.responses.getLast?
  | .fault _ => none
  | .refused _ => none

/-- The slots after a packet presented in a state. -/
def slotsAfter (s : State) (p : Packet) : Option SlotMem :=
  match step (s.present p) with
  | .next t => some t.slots
  | .fault _ => none
  | .refused _ => none

/-- The filter of program P2: `W = 2`, `K = 2`, `M = 5`. -/
def filterP2 (phase : Phase) (a b c d e : Slot) : State :=
  { State.reset with phase := phase, w := 2, k := 2, m := 5, slots := [(0, a), (1, b), (2, c), (3, d), (4, e)] }

/-- V-H11. -/
theorem test_hash_block_and_tail :
    answer State.reset [0x01, 1, 0, 0, 0, 5, 0, 0, 0, 0x48, 0x65, 0x6C, 0x6C, 0x6F] =
      some [0, 0x98, 0xD0, 0x7B, 0x4A] := by decide

/-- V-H21: bytes are unsigned. -/
theorem test_hash_high_bytes :
    answer State.reset [0x01, 0, 0, 0, 0, 3, 0, 0, 0, 0xFF, 0xFF, 0xFF] = some [0, 0x26, 0xA0, 0x12, 0xBF] := by decide

/-- V-S3 through `SBF_INIT`: one slot, one hash, at every capacity. -/
theorem test_sbfInit_one_slot (s : State) :
    exec (.sbfInit 1 0x3FEFF7CED916872B 4) s =
      .next ((s.configure 4 1 1).answered [0, 1, 0, 0, 0, 1, 0, 0, 0]) := by
  have hm : sizingM 1 0x3FEFF7CED916872B = 1 := by decide +kernel
  have hk : sizingK 1 0x3FEFF7CED916872B = 1 := by decide +kernel
  have h := execSbfInit_legal (n := 1) (p := 0x3FEFF7CED916872B) (w := 4) s (by decide) (by decide +kernel) (by decide)
    (by rw [hm]; decide) (by rw [hm]; exact Config.mMax_pos)
  rw [hm, hk] at h
  exact h

/-- V-E9: the width is checked before `n = 0`. -/
theorem test_sbfInit_priority :
    answer State.reset [0x10, 0, 0, 0, 0, 0x7B, 0x14, 0xAE, 0x47, 0xE1, 0x7A, 0x84, 0x3F, 0] = some [1] := by decide

/-- 41_filter R76 on a sealed filter: the slot is cleared, the other slots are out of reach. -/
theorem test_sbfCfg_clears :
    exec (.sbfCfg 1 7 31) (filterP2 .sealed 3 0 0 3 3) =
      .next { State.reset with
        phase := .build, w := 31, k := 7, m := 1, slots := [(0, 0), (1, 0), (2, 0), (3, 3), (4, 3)],
        responses := [[0]] } :=
  execSbfCfg_legal _ (by decide) (by decide) Config.mMax_pos (by decide)

/-- 60_exceptions R112: a width of 32 is answered `InvalidParameter`. -/
theorem test_sbfCfg_width : answer State.reset [0x11, 1, 0, 0, 0, 1, 0, 0, 0, 32] = some [1] := by decide

/-- V-F5: saturation, and a slot below the new value is raised. -/
theorem test_sbfInsert_saturates :
    slotsAfter (filterP2 .build 2 0 0 0 0) [0x12, 5, 0, 0, 0, 1, 0, 0, 0, 0x78] =
      some [(0, 3), (1, 0), (2, 0), (3, 3), (4, 0)] := by decide

/-- V-F6: a slot above the new value is not lowered. -/
theorem test_sbfInsert_keeps_larger :
    slotsAfter (filterP2 .build 3 0 0 3 0) [0x12, 1, 0, 0, 0, 1, 0, 0, 0, 0x79] =
      some [(0, 3), (1, 0), (2, 0), (3, 3), (4, 1)] := by decide

/-- P2 step 9. -/
theorem test_sbfSeal :
    exec .sbfSeal (filterP2 .build 3 0 0 3 3) =
      .next { filterP2 .sealed 3 0 0 3 3 with responses := [[0]] } := rfl

/-- P2 step 11. -/
theorem test_sbfSeal_twice : answer (filterP2 .sealed 3 0 0 3 3) [0x13] = some [4] := by decide

/-- P2 step 13. -/
theorem test_sbfQuery : answer (filterP2 .sealed 3 0 0 3 3) [0x14, 1, 0, 0, 0, 0x79] = some [0, 3, 0, 0, 0] := by decide

/-- P2 step 14: one of the candidates of `"q"` is still 0. -/
theorem test_sbfQuery_zero : answer (filterP2 .sealed 3 0 0 3 3) [0x14, 1, 0, 0, 0, 0x71] = some [0, 0, 0, 0, 0] := by
  decide

/-- P2 step 16. -/
theorem test_sbfInfo :
    answer (filterP2 .sealed 3 0 0 3 3) [0x15] = some [0, 2, 0, 0, 0, 2, 0, 0, 0, 5, 0, 0, 0] := by decide

/-- P2 step 17. -/
theorem test_sbfExport : answer (filterP2 .sealed 3 0 0 3 3) [0x16] = some [0, 0x0A, 0, 0, 0, 0xC3, 0xC0] := by decide

/-- V-C13: groups that straddle bytes. -/
theorem test_b15Enc_straddles :
    answer State.reset [0x20, 0x1F, 0, 0, 0, 0x55, 0x55, 0x55, 0x54] =
      some [0, 4, 0, 0, 0, 0x65, 0, 0x4B, 0x2B, 0xF6, 0x55, 0xA1, 0] := by decide

/-- V-C1. -/
theorem test_b15Enc_empty : answer State.reset [0x20, 0, 0, 0, 0] = some [0, 1, 0, 0, 0, 0x30, 0] := by decide

/-- V-C30: a dropped bit that is 1. -/
theorem test_b15Dec_drops : answer State.reset [0x21, 2, 0, 0, 0, 0x31, 0, 0xA2, 0] = some [0, 0x0E, 0, 0, 0, 0, 0] := by
  decide

/-- V-C15: the first code point above the data range. -/
theorem test_b15Dec_range : answer State.reset [0x21, 2, 0, 0, 0, 0x30, 0, 0xA1, 0x80] = some [3] := by decide

/-- V-E10 through a step. -/
theorem test_illegal_opcode : answer State.reset [0x7F] = some [5] := by decide

/-- 30_encoding R54. -/
theorem test_asm :
    asm (.sbfInsert 5 [0x78]) = "SBF_INSERT freq=5, key=x\"78\"" ∧
      asm (.b15Dec [0x38, 0x59A1]) = "B15_DEC text=t[0x0038, 0x59A1]" ∧
      responseText .sbfInit [0, 0x1D, 0, 0, 0, 7, 0, 0, 0] = "-> OK m=29, k=7" := by
  decide +kernel

/-- A second reset: every register cleared, a slot of the old filter at a free value (70_reset R125). -/
theorem test_reset_again (s : State) :
    step { s with inbox := [.reset none] } = .next { State.reset with resets := s.resets + 1, responses := s.responses } ∧
      State.slot { State.reset with resets := s.resets + 1, responses := s.responses } 3 =
        Config.resetSlot (s.resets + 1) 3 := ⟨rfl, rfl⟩

/-! ## States that meet the invariant -/

/-- A filter of one slot, which every capacity holds. -/
def oneSlot (phase : Phase) (w : BitVec 5) (v : Slot) : State :=
  { State.reset with phase := phase, w := w, k := 1, m := 1, slots := [(0, v)] }

theorem oneSlot_inv (phase : Phase) (w : BitVec 5) (v : Slot) (hp : phase ≠ .idle) (hw : 1 ≤ w.toNat)
    (hv : v.toNat ≤ 2 ^ w.toNat - 1) : (oneSlot phase w v).Inv where
  slots_canonical := rfl
  slots_exist := by
    intro c hc
    rw [List.mem_singleton.mp hc]
    exact Config.mMax_pos
  idle_zero h := absurd h hp
  width_legal _ := hw
  count_legal _ := le_rfl
  size_legal _ := ⟨le_rfl, Config.mMax_pos⟩
  slots_legal _ j hj := by
    obtain rfl : j = 0 := Nat.lt_one_iff.mp hj
    exact hv
  slots_written _ j hj := by
    obtain rfl : j = 0 := Nat.lt_one_iff.mp hj
    rfl

/-- The least and the greatest width, with the least and the greatest slot value. -/
theorem witness_inv :
    (oneSlot .build 1 0).Inv ∧ (oneSlot .sealed 1 1).Inv ∧ (oneSlot .build 31 2147483647).Inv ∧ State.reset.Inv :=
  ⟨oneSlot_inv _ _ _ (by decide) (by decide) (by decide), oneSlot_inv _ _ _ (by decide) (by decide) (by decide),
    oneSlot_inv _ _ _ (by decide) (by decide) (by decide),
    ⟨rfl, by simp [State.reset], fun _ => ⟨rfl, rfl, rfl⟩, fun h => absurd rfl h, fun h => absurd rfl h,
      fun h => absurd rfl h, fun h => absurd rfl h, fun h => absurd rfl h⟩⟩

theorem buildOne_inv : (oneSlot .build 1 0).Inv := witness_inv.1

theorem sealedOne_inv : (oneSlot .sealed 1 1).Inv := witness_inv.2.1

theorem buildOne_fresh : FreshFilter (oneSlot .build 1 0) where
  inv := buildOne_inv
  phase := rfl
  slots j hj := by
    obtain rfl : j = 0 := Nat.lt_one_iff.mp hj
    rfl

/-! ## Witnesses for the hypotheses of the obligations -/

/-- Resets with and without a command in progress, of a built filter. -/
theorem witness_ResetEventEmptiesTheBlock :
    State.inbox { filterP2 .sealed 3 0 0 3 3 with inbox := [.reset none] } = .reset none :: [] ∧
      State.inbox { filterP2 .build 3 0 0 3 3 with inbox := [.reset (some [0x13]), .command [0x16]] } =
        .reset (some [0x13]) :: [.command [0x16]] := ⟨rfl, rfl⟩

theorem witness_StepRunsTheDecodedCommand :
    (State.inbox { State.reset with inbox := [.command [0x13]] } = .command [0x13] :: [] ∧
        decode [0x13] = .ok .sbfSeal) ∧
      decodeTableWord 8 0x16 = some .sbfExport ∧ State.reset.inbox = [] :=
  ⟨⟨rfl, by decide⟩, by decide, rfl⟩

/-- The empty packet, an opcode outside the map, a trailing byte, a truncated packet, a text one character too long. -/
theorem witness_OtherPacketsAreIllegalCommands :
    State.inbox { State.reset with inbox := [.command []] } = .command [] :: [] ∧
      ¬ IsCommandPacket [] ∧ ¬ IsCommandPacket [0x00] ∧ ¬ IsCommandPacket [0xFF] ∧ ¬ IsCommandPacket [0x13, 0] ∧
      ¬ IsCommandPacket [0x01, 0, 0, 0, 0, 2, 0, 0, 0, 0x61] ∧ ¬ IsCommandPacket [0x21, 0x13, 0x11, 0x11, 0x11] := by
  refine ⟨rfl, ?_⟩
  simp [IsCommandPacket, u32At, byteAt]

/-- Each format at its least length, and the longest `text` count. -/
theorem witness_CommandPacketsDecodeByOffset :
    IsCommandPacket [0x01, 0, 0, 0, 0, 0, 0, 0, 0] ∧
      IsCommandPacket [0x10, 0, 0, 0, 0, 0, 0, 0, 0, 0, 0, 0, 0, 0] ∧
      IsCommandPacket [0x11, 0, 0, 0, 0, 0, 0, 0, 0, 0] ∧ IsCommandPacket [0x12, 0, 0, 0, 0, 1, 0, 0, 0, 0xFF] ∧
      IsCommandPacket [0x13] ∧ IsCommandPacket [0x14, 0, 0, 0, 0] ∧ IsCommandPacket [0x15] ∧
      IsCommandPacket [0x16] ∧ IsCommandPacket [0x20, 9, 0, 0, 0, 0xFF, 0xFF] ∧
      IsCommandPacket [0x21, 0, 0, 0, 0] := by
  simp [IsCommandPacket, u32At, byteAt]

theorem witness_longest_text :
    IsCommandPacket (0x21 :: 0x12 :: 0x11 :: 0x11 :: 0x11 :: List.replicate (2 * 286331154) 0) := by
  have key : ∀ tail : Packet, tail.length = 2 * 286331154 →
      IsCommandPacket (0x21 :: 0x12 :: 0x11 :: 0x11 :: 0x11 :: tail) := by
    intro tail h
    simp [IsCommandPacket, u32At, byteAt, h]
  exact key _ List.length_replicate

/-- Every constructor, the variable operands at their greatest length. -/
theorem witness_DecodeUndoesEncode :
    (Instr.hash 1 (List.replicate (2 ^ 32 - 1) 0)).wf = true ∧ (Instr.sbfInit 3 0x3F847AE147AE147B 4).wf = true ∧
      (Instr.sbfCfg 5 2 2).wf = true ∧ (Instr.sbfInsert 1 (List.replicate (2 ^ 32 - 1) 0)).wf = true ∧
      Instr.sbfSeal.wf = true ∧ (Instr.sbfQuery (List.replicate (2 ^ 32 - 1) 0)).wf = true ∧
      Instr.sbfInfo.wf = true ∧ Instr.sbfExport.wf = true ∧ (Instr.b15Enc (List.replicate (2 ^ 32 - 1) true)).wf = true ∧
      (Instr.b15Dec (List.replicate 286331154 0x30)).wf = true := by
  simp only [Instr.wf, List.length_replicate]
  decide

/-- A packet with spare bits, and one of a command without them. -/
theorem witness_EncodeUndoesDecode :
    decode [0x20, 3, 0, 0, 0, 0xBF] = .ok (.b15Enc [true, false, true]) ∧
      decode [0x14, 0, 0, 0, 0] = .ok (.sbfQuery []) ∧ ∀ bits, Instr.sbfQuery [] ≠ .b15Enc bits :=
  ⟨by decide, by decide, fun _ h => by cases h⟩

/-- The least and the greatest key count; the rates 0.01, 1, 0.5 and the least subnormal. -/
theorem witness_sizing :
    ((3 : Word) ≠ 0 ∧ (4294967295 : Word) ≠ 0 ∧ (1 : Word) ≠ 0) ∧ rateOk 0x3F847AE147AE147B = true ∧
      rateOk 0x3FF0000000000000 = true ∧ rateOk 0x3FE0000000000000 = true ∧ rateOk 1 = true := by decide +kernel

/-- The clauses of `SizingIsPositiveBelowRateOne`: a rate below 1, and sizes that every capacity holds. -/
theorem witness_SizingIsPositiveBelowRateOne :
    (0x3FEFF7CED916872B : F64) ≠ 0x3FF0000000000000 ∧ rateOk 0x3FEFF7CED916872B = true ∧
      sizingM 1 0x3FEFF7CED916872B ≤ Config.mMax := by
  have hm : sizingM 1 0x3FEFF7CED916872B = 1 := by decide +kernel
  exact ⟨by decide, by decide +kernel, hm ▸ Config.mMax_pos⟩

/-- The error clauses of `SbfInitFollowsItsRule`: widths 0, 32 and 255; a zero, a NaN, an infinite, a negative and a too
large rate; no keys; sizes 0 and above every capacity. -/
theorem witness_SbfInit_errors :
    (¬ (1 ≤ (0 : Byte).toNat ∧ (0 : Byte).toNat ≤ 31) ∧ ¬ (1 ≤ (32 : Byte).toNat ∧ (32 : Byte).toNat ≤ 31) ∧
        ¬ (1 ≤ (255 : Byte).toNat ∧ (255 : Byte).toNat ≤ 31)) ∧
      (1 ≤ (1 : Byte).toNat ∧ (1 : Byte).toNat ≤ 31 ∧ 1 ≤ (31 : Byte).toNat ∧ (31 : Byte).toNat ≤ 31) ∧
      (rateOk 0 = false ∧ rateOk 0x7FF8000000000000 = false ∧ rateOk 0x7FF0000000000000 = false ∧
        rateOk 0xBFE0000000000000 = false ∧ rateOk 0x3FF0000000000001 = false) ∧
      (rateOk 0x3F847AE147AE147B = true ∧ (0 : Word) = 0) ∧
      (rateOk 0x3FF0000000000000 = true ∧ (3 : Word) ≠ 0 ∧ sizingM 3 0x3FF0000000000000 = 0) ∧
      (rateOk 0x3FE0000000000000 = true ∧ Config.mMax < sizingM 4294967295 0x3FE0000000000000) := by
  have hm : sizingM 4294967295 0x3FE0000000000000 = 6196328018 := by decide +kernel
  refine ⟨by decide, by decide, by decide +kernel, ⟨by decide +kernel, rfl⟩,
    ⟨by decide +kernel, by decide, by decide +kernel⟩, by decide +kernel, ?_⟩
  have := Config.mMax_le
  omega

/-- The success clause of `SbfInitFollowsItsRule`, at the least and the greatest width. -/
theorem witness_SbfInit_success :
    (1 ≤ (1 : Byte).toNat ∧ (31 : Byte).toNat ≤ 31) ∧ rateOk 0x3FEFF7CED916872B = true ∧ (1 : Word) ≠ 0 ∧
      1 ≤ sizingM 1 0x3FEFF7CED916872B ∧ sizingM 1 0x3FEFF7CED916872B ≤ Config.mMax := by
  have hm : sizingM 1 0x3FEFF7CED916872B = 1 := by decide +kernel
  rw [hm]
  exact ⟨by decide, by decide +kernel, by decide, le_rfl, Config.mMax_pos⟩

/-- `RateOneIsInvalidParameter` at the least and the greatest width. -/
theorem witness_RateOneIsInvalidParameter :
    (1 : Word) ≠ 0 ∧ (4294967295 : Word) ≠ 0 ∧ 1 ≤ (1 : Byte).toNat ∧ (1 : Byte).toNat ≤ 31 ∧
      1 ≤ (31 : Byte).toNat ∧ (31 : Byte).toNat ≤ 31 := by decide

/-- The clauses of `SbfCfgFollowsItsRule`: each cause of the error, and success with the least sizes and with the
greatest slot count, hash count and width. -/
theorem witness_SbfCfgFollowsItsRule :
    (¬ (1 ≤ (32 : Byte).toNat ∧ (32 : Byte).toNat ≤ 31)) ∧ (0 : Word) = 0 ∧
      Config.mMax < (138547333 : Word).toNat ∧
      (1 ≤ (1 : Byte).toNat ∧ (1 : Word) ≠ 0 ∧ (1 : Word).toNat ≤ Config.mMax ∧ (4294967295 : Word) ≠ 0 ∧
        (31 : Byte).toNat ≤ 31) ∧
      (BitVec.ofNat 32 Config.mMax).toNat ≤ Config.mMax ∧ BitVec.ofNat 32 Config.mMax ≠ 0 := by
  have h1 := Config.mMax_pos
  have h2 := Config.mMax_le
  have hm : (BitVec.ofNat 32 Config.mMax).toNat = Config.mMax := by
    rw [BitVec.toNat_ofNat, Nat.mod_eq_of_lt]; omega
  refine ⟨by decide, rfl, ?_, ⟨by decide, by decide, h1, by decide, by decide⟩, hm.le, ?_⟩
  · exact Nat.lt_of_le_of_lt h2 (by decide)
  · intro h0
    rw [h0] at hm
    exact absurd hm (Nat.ne_of_lt h1)

/-- `ConfiguringTwiceIsConfiguringOnce` for both commands. -/
theorem witness_ConfiguringTwiceIsConfiguringOnce :
    (∃ t, exec (.sbfCfg 1 1 1) State.reset = .next t ∧ t.phase = .build) ∧
      (∃ t, exec (.sbfInit 1 0x3FEFF7CED916872B 4) State.reset = .next t ∧ t.phase = .build) :=
  ⟨⟨_, execSbfCfg_legal _ (by decide) (by decide) Config.mMax_pos (by decide), rfl⟩,
    ⟨_, test_sbfInit_one_slot _, rfl⟩⟩

/-- Both phases of `SbfInsertFollowsItsRule`, `ZeroFrequencyChangesNothing` and `SbfSealFollowsItsRule`, and of the phase discipline. -/
theorem witness_phases :
    State.reset.phase ≠ .build ∧ State.reset.phase ≠ .sealed ∧ (oneSlot .sealed 1 1).phase ≠ .build ∧
      (oneSlot .build 1 0).phase ≠ .sealed ∧ ((oneSlot .build 1 0).Inv ∧ (oneSlot .build 1 0).phase = .build) ∧
      ((oneSlot .sealed 1 1).Inv ∧ (oneSlot .sealed 1 1).phase = .sealed) :=
  ⟨by decide, by decide, by decide, by decide, ⟨buildOne_inv, rfl⟩, sealedOne_inv, rfl⟩

/-- An insertion with frequency 0, and one of the empty key, that answer a next state. -/
theorem witness_insertions_complete :
    (∃ t, exec (.sbfInsert 0 [0x71]) (filterP2 .build 3 0 0 3 2) = .next t) ∧
      (∃ t, exec (.sbfInsert 2 []) (filterP2 .build 0 0 0 0 0) = .next t ∧ t.slot 0 = 2) :=
  ⟨⟨_, execSbfInsert_build (u := filterP2 .build 3 0 0 3 2) rfl (by decide)⟩,
    ⟨_, execSbfInsert_build (u := filterP2 .build 2 0 0 0 0) rfl (by decide), rfl⟩⟩

/-- `CandidateIndexIsInRange` and `ExportTextLength`. -/
theorem witness_CandidateIndexIsInRange :
    (oneSlot .sealed 1 1).Inv ∧ (oneSlot .sealed 1 1).phase ≠ .idle ∧ (oneSlot .sealed 1 1).phase = .sealed :=
  ⟨sealedOne_inv, by decide, rfl⟩

/-- The hypotheses of the three laws of a fresh filter, the cap just reached. -/
theorem witness_laws :
    FreshFilter (oneSlot .build 1 0) ∧ 1 ≤ totalFrequency [([0x61], 1)] [0x61] ∧
      2 ^ (oneSlot .build 1 0).w.toNat - 1 ≤ totalFrequency [([0x61], 1)] [0x61] :=
  ⟨buildOne_fresh, by decide, by decide⟩

theorem witness_UnitInsertionsEqualOneBatch :
    (oneSlot .build 31 2147483647).Inv ∧ (oneSlot .build 31 2147483647).phase = .build :=
  ⟨witness_inv.2.2.1, rfl⟩

/-- The premises of `InsertionKeepsTheFloor`, the floor at the cap of the greatest width, and a command of its second
clause. -/
theorem witness_InsertionKeepsTheFloor :
    (oneSlot .build 31 2147483647).Inv ∧ HoldsFloor (oneSlot .build 31 2147483647) [0x61] 4294967295 ∧
      (oneSlot .build 31 2147483647).phase = .build ∧
      ((∀ n p w, Instr.sbfSeal ≠ .sbfInit n p w) ∧ ∀ m k w, Instr.sbfSeal ≠ .sbfCfg m k w) ∧
      ∃ t, exec .sbfSeal (oneSlot .build 31 2147483647) = .next t := by
  refine ⟨witness_inv.2.2.1, ?_, rfl, ⟨(fun _ _ _ h => by cases h), fun _ _ _ h => by cases h⟩, _, rfl⟩
  rintro j ⟨i, _, rfl⟩
  rw [show (oneSlot .build 31 2147483647).m.toNat = 1 from rfl, Nat.mod_one]
  decide

/-- V-F13 and V-F14. -/
theorem witness_InsertionOrderMatters :
    ∃ s : State, s.phase = .build ∧ s.w = 4 ∧ s.k = 2 ∧ s.m = 2 ∧ s.slots = [(0, 0), (1, 0)] :=
  ⟨{ State.reset with phase := .build, w := 4, k := 2, m := 2, slots := [(0, 0), (1, 0)] }, rfl, rfl, rfl, rfl, rfl⟩

theorem witness_ConstructionSucceedsOrChangesNothing : (oneSlot .sealed 1 1).Inv ∧ State.reset.Inv :=
  ⟨sealedOne_inv, witness_inv.2.2.2⟩

/-- The four causes of `DecodeError` at the bounds of their ranges (V-C17, V-C19, V-C20 to V-C24, V-C26, V-C15). -/
theorem witness_undecodable :
    IsUndecodable [] ∧ IsUndecodable [0x2F, 0xA1] ∧ IsUndecodable [0x3A, 0xA1] ∧ IsUndecodable [0x60, 0xA1] ∧
      IsUndecodable [0x66, 0xA1] ∧ IsUndecodable [0x30, 0xA0] ∧ IsUndecodable [0x30, 0x80A1] ∧
      IsUndecodable [0x35] := by
  have header : ∀ c : CodeUnit, (c.toNat < 0x30 ∨ (0x39 < c.toNat ∧ c.toNat < 0x61) ∨ 0x65 < c.toNat) →
      IsUndecodable [c, 0xA1] := fun c hc =>
    .inr (.inl ⟨c, _, rfl, fun ⟨_, h⟩ => by unfold IsHexVal at h; omega⟩)
  refine ⟨.inl rfl, header _ (by decide), header _ (by decide), header _ (by decide), header _ (by decide),
    .inr (.inr (.inl ⟨0xA0, by decide, by decide⟩)), .inr (.inr (.inl ⟨0x80A1, by decide, by decide⟩)),
    .inr (.inr (.inr ⟨0x35, [], 5, rfl, .inl (by decide), by decide⟩))⟩

/-- Texts that decode: no data, the greatest padding, the least and the greatest data character. -/
theorem witness_decodable :
    ¬ IsUndecodable [0x30] ∧ ¬ IsUndecodable [0x65, 0xA1] ∧ ¬ IsUndecodable [0x30, 0x80A0] := by
  have h : ∀ t : Text, b15Decode t ≠ none →
      t = [] ∨ ∃ header rest pad, t = header :: rest ∧ hexVal header = some pad ∧
        (∀ c ∈ rest, isDataChar c = true) ∧ pad ≤ 15 * rest.length := by
    intro t ht
    obtain ⟨s, hs⟩ := Option.ne_none_iff_exists'.mp ht
    obtain ⟨header, rest, pad, h1, h2, h3, h4, _⟩ := b15Decode_some hs
    exact .inr ⟨header, rest, pad, h1, h2, h3, h4⟩
  have key : ∀ t : Text, t ≠ [] → b15Decode t ≠ none → ¬ IsUndecodable t := by
    intro t hne ht hbad
    obtain ⟨header, rest, pad, rfl, h2, h3, h4⟩ := (h t ht).resolve_left hne
    have hval : ∀ v, IsHexVal header v ↔ hexVal header = some v := by
      intro v
      unfold IsHexVal hexVal
      split
      · simp only [Option.some.injEq]; omega
      · split
        · simp only [Option.some.injEq]; omega
        · simp only [reduceCtorEq, iff_false]; omega
    rcases hbad with h0 | ⟨c, r, h0, hc⟩ | ⟨c, hc, hr⟩ | ⟨c, r, p, h0, hp, hl⟩
    · exact hne h0
    · injection h0 with e1 e2
      subst e1
      exact hc ⟨pad, (hval pad).mpr h2⟩
    · have := h3 c hc
      simp only [isDataChar, Bool.and_eq_true, decide_eq_true_eq] at this
      exact hr this
    · injection h0 with e1 e2
      subst e1 e2
      have := (hval p).mp hp
      rw [h2] at this
      injection this with e
      omega
  exact ⟨key _ (by decide) (by decide), key _ (by decide) (by decide), key _ (by decide) (by decide)⟩

/-- The empty and the longest bit string. -/
theorem witness_CodecRoundTrip :
    ([] : Bits).length < 2 ^ 32 ∧ (List.replicate (2 ^ 32 - 1) true).length < 2 ^ 32 := by
  rw [List.length_replicate]
  decide

/-- V-C29 and V-C30, and the greatest padding with characters of one first bit. -/
theorem witness_DroppedPaddingIsNotExamined :
    (IsHexVal 0x31 1 ∧ ((0xA1 : CodeUnit).toNat - 161) / 2 ^ 1 = ((0xA2 : CodeUnit).toNat - 161) / 2 ^ 1) ∧
      (IsHexVal 0x65 14 ∧ 161 ≤ (0x40A1 : CodeUnit).toNat ∧ (0x80A0 : CodeUnit).toNat ≤ 32928 ∧
        ((0x40A1 : CodeUnit).toNat - 161) / 2 ^ 14 = ((0x80A0 : CodeUnit).toNat - 161) / 2 ^ 14) :=
  ⟨⟨.inl (by decide), by decide⟩, .inr (by decide), by decide, by decide, by decide⟩

/-- An error response with its status (P2 step 11). -/
theorem witness_ErrorsLeaveTheStateUnchanged :
    exec .sbfSeal (filterP2 .sealed 3 0 0 3 3) = .next ((filterP2 .sealed 3 0 0 3 3).answered [0x04]) ∧
      ((filterP2 .sealed 3 0 0 3 3).answered [0x04]).responses =
        (filterP2 .sealed 3 0 0 3 3).responses ++ [0x04 :: []] ∧ (0x04 : Byte) ≠ 0x00 :=
  ⟨rfl, rfl, by decide⟩

/-- The step rules: a packet, and a state whose step answers a next state. -/
theorem witness_EveryStepKeepsTheInvariant :
    State.Inv { oneSlot .build 1 0 with inbox := [.command [0x13]] } ∧
      ∃ t, step { oneSlot .build 1 0 with inbox := [.command [0x13]] } = .next t ∧ t.phase = .sealed :=
  ⟨⟨buildOne_inv.1, buildOne_inv.2, buildOne_inv.3, buildOne_inv.4, buildOne_inv.5, buildOne_inv.6, buildOne_inv.7,
      buildOne_inv.8⟩,
    _, rfl, rfl⟩

/-- The whole-machine rules about `exec`: commands that answer a next state in each phase, and two states that differ in
a slot out of reach. -/
theorem witness_exec_rules :
    (∃ t, exec .sbfSeal (oneSlot .build 1 0) = .next t) ∧
      ((oneSlot .sealed 1 1).phase = .sealed ∧ ∃ t, exec (.sbfCfg 1 1 1) (oneSlot .sealed 1 1) = .next t) ∧
      (∃ t, exec (.sbfQuery []) (oneSlot .sealed 1 1) = .next t ∧ (oneSlot .sealed 1 1).slot 0 = 1) ∧
      ((∀ n p w, Instr.sbfSeal ≠ .sbfInit n p w) ∧ ∀ m k w, Instr.sbfSeal ≠ .sbfCfg m k w) :=
  ⟨⟨_, rfl⟩, ⟨rfl, _, execSbfCfg_legal _ (by decide) (by decide) Config.mMax_pos (by decide)⟩,
    ⟨_, execSbfQuery_sealed (mn := 1) rfl (by decide), rfl⟩, (fun _ _ _ h => by cases h), fun _ _ _ h => by cases h⟩

/-- Another count of resets, and a command that reads the filter. -/
theorem witness_ResetContentsAreUnobservable :
    (oneSlot .sealed 1 1).Inv ∧ { oneSlot .sealed 1 1 with resets := 5 } ≠ oneSlot .sealed 1 1 ∧
      ∃ t, exec (.sbfQuery []) (oneSlot .sealed 1 1) = .next t :=
  ⟨sealedOne_inv, by decide, _, execSbfQuery_sealed (mn := 1) rfl (by decide)⟩

theorem witness_OtherSlotsAreUnobservable :
    (oneSlot .sealed 1 1).Inv ∧
      SameVisible (oneSlot .sealed 1 1)
        { oneSlot .sealed 1 1 with slots := [(0, 1), (7, 5)], responses := [[0x00]] } :=
  ⟨sealedOne_inv, rfl, rfl, rfl, rfl, fun j hj => by obtain rfl : j = 0 := Nat.lt_one_iff.mp hj; rfl⟩

/-- Each of the three pure commands. -/
theorem witness_PureCommandsReadNoState :
    (∃ seed key, Instr.hash 0 [] = .hash seed key) ∧ (∃ bits, Instr.b15Enc [] = .b15Enc bits) ∧
      ∃ text, Instr.b15Dec [] = .b15Dec text := ⟨⟨_, _, rfl⟩, ⟨_, rfl⟩, _, rfl⟩

end Sys2Proof.Tests
end

section
/-! Family 30_encoding: the packet decoder by offsets (R41 to R53).

Every field reader, applied to what follows the first `o` bytes of a packet, is described by the packet's bytes at the
offset `o`. So each operand reader of R48 reads a packet exactly when the packet has its format's length
(`HasFormat`), and then gives the operands at the format's offsets (`commandAt`). -/

namespace Sys2Proof

open Sys2Proof.Machine Sys2Proof.Spec

/-! ## Numbers at an offset -/

theorem byteAt_lt (p : Packet) (o : Nat) : byteAt p o < 2 ^ 8 := (p.getD o 0).isLt

theorem u32At_lt (p : Packet) (o : Nat) : u32At p o < 2 ^ 32 := by
  have h0 := byteAt_lt p o
  have h1 := byteAt_lt p (o + 1)
  have h2 := byteAt_lt p (o + 2)
  have h3 := byteAt_lt p (o + 3)
  unfold u32At
  omega

/-- The `u32` field at an offset as a word (30_encoding R42). -/
def wordAt (p : Packet) (o : Nat) : Word := BitVec.ofNat 32 (u32At p o)

@[simp] theorem wordAt_toNat (p : Packet) (o : Nat) : (wordAt p o).toNat = u32At p o := by
  rw [wordAt, BitVec.toNat_ofNat, Nat.mod_eq_of_lt (u32At_lt p o)]

/-- The `f64` field at an offset (30_encoding R45). -/
def rateAt (p : Packet) (o : Nat) : F64 := BitVec.ofNat 64 (u32At p o + 2 ^ 32 * u32At p (o + 4))

@[simp] theorem rateAt_toNat (p : Packet) (o : Nat) :
    (rateAt p o).toNat = u32At p o + 2 ^ 32 * u32At p (o + 4) := by
  have hlo := u32At_lt p o
  have hhi := u32At_lt p (o + 4)
  rw [rateAt, BitVec.toNat_ofNat, Nat.mod_eq_of_lt (by omega)]

/-- The first of the bytes at an offset is the least significant. A byte past the end counts 0, so no length is asked
for. -/
theorem leNat_take_succ (p : Packet) (o n : Nat) :
    leNat ((p.drop o).take (n + 1)) = byteAt p o + 2 ^ 8 * leNat ((p.drop (o + 1)).take n) := by
  by_cases h : o < p.length
  · rw [List.drop_eq_getElem_cons h, List.take_succ_cons, leNat, byteAt, List.getD_eq_getElem _ _ h]
    rfl
  · have hlen : p.length ≤ o := Nat.le_of_not_lt h
    simp [List.drop_of_length_le hlen, List.drop_of_length_le (Nat.le_succ_of_le hlen), leNat, byteAt, hlen]

theorem leNat_take_two (p : Packet) (o : Nat) :
    leNat ((p.drop o).take 2) = byteAt p o + 2 ^ 8 * byteAt p (o + 1) := by
  simp [leNat_take_succ, leNat]

theorem leNat_take_four (p : Packet) (o : Nat) : leNat ((p.drop o).take 4) = u32At p o := by
  simp only [leNat_take_succ, List.take_zero, leNat, u32At, Nat.add_assoc, Nat.reduceAdd]
  omega

theorem leNat_take_eight (p : Packet) (o : Nat) :
    leNat ((p.drop o).take 8) = u32At p o + 2 ^ 32 * u32At p (o + 4) := by
  simp only [leNat_take_succ, List.take_zero, leNat, u32At, Nat.add_assoc, Nat.reduceAdd]
  omega

/-! ## Fields at an offset -/

section Readers

variable {α β : Type} {p rest : Packet} {o : Nat}

/-- A mapped field, from what its reader is known to give: the value `v` exactly when `C` holds. -/
theorem mapField_eq_ok_iff {f : α → β} {read : FieldReader α} {bs : Packet} {v : α} {b : β} {C : Prop}
    (hread : ∀ a, read bs = .ok (a, rest) ↔ C ∧ a = v) :
    mapField f read bs = .ok (b, rest) ↔ C ∧ b = f v := by
  constructor
  · intro h
    obtain ⟨a, ha, rfl⟩ := mapField_ok h
    obtain ⟨hC, rfl⟩ := (hread a).mp ha
    exact ⟨hC, rfl⟩
  · rintro ⟨hC, rfl⟩
    exact mapField_of ((hread v).mpr ⟨hC, rfl⟩)

/-- Two fields, from what the first reader is known to give: `v` and the bytes `mid` exactly when `C` holds. -/
theorem thenTake_eq_ok_iff {first : FieldReader α} {second : α → FieldReader β} {bs mid : Packet} {v : α} {b : β}
    {C : Prop} (hfirst : ∀ a r, first bs = .ok (a, r) ↔ (C ∧ r = mid) ∧ a = v) :
    thenTake first second bs = .ok (b, rest) ↔ C ∧ second v mid = .ok (b, rest) := by
  constructor
  · intro h
    obtain ⟨a, r, ha, hsecond⟩ := thenTake_ok h
    obtain ⟨⟨hC, rfl⟩, rfl⟩ := (hfirst a r).mp ha
    exact ⟨hC, hsecond⟩
  · rintro ⟨hC, hsecond⟩
    exact (thenTake_of ((hfirst v mid).mpr ⟨⟨hC, rfl⟩, rfl⟩)).trans hsecond

/-- At an offset past the end `takeBytes 0` still gives the empty list: hence the hypothesis. -/
theorem takeBytes_drop_eq_ok_iff {n : Nat} {f : List Byte} (ho : o ≤ p.length ∨ 0 < n) :
    takeBytes n (p.drop o) = .ok (f, rest) ↔
      (o + n ≤ p.length ∧ rest = p.drop (o + n)) ∧ f = (p.drop o).take n := by
  have hlen : n ≤ (p.drop o).length ↔ o + n ≤ p.length := by rw [List.length_drop]; omega
  rw [takeBytes, List.drop_drop]
  by_cases h : o + n ≤ p.length
  · rw [if_pos (hlen.mpr h)]
    simp [h, and_comm, eq_comm]
  · rw [if_neg (mt hlen.mp h)]
    simp [h]

theorem takeU32_drop_eq_ok_iff {v : Word} :
    takeU32 (p.drop o) = .ok (v, rest) ↔ (o + 4 ≤ p.length ∧ rest = p.drop (o + 4)) ∧ v = wordAt p o := by
  have hread : takeU32 (p.drop o) = mapField (fun f => BitVec.ofNat 32 (leNat f)) (takeBytes 4) (p.drop o) := by
    cases h : takeBytes 4 (p.drop o) <;> simp only [takeU32, mapField, h]
  rw [hread, mapField_eq_ok_iff fun _ => takeBytes_drop_eq_ok_iff (.inr (by decide)), leNat_take_four, wordAt]

theorem takeF64_drop_eq_ok_iff {v : F64} :
    takeF64 (p.drop o) = .ok (v, rest) ↔ (o + 8 ≤ p.length ∧ rest = p.drop (o + 8)) ∧ v = rateAt p o := by
  have hread : takeF64 (p.drop o) = mapField (fun f => BitVec.ofNat 64 (leNat f)) (takeBytes 8) (p.drop o) := by
    cases h : takeBytes 8 (p.drop o) <;> simp only [takeF64, mapField, h]
  rw [hread, mapField_eq_ok_iff fun _ => takeBytes_drop_eq_ok_iff (.inr (by decide)), leNat_take_eight, rateAt]

theorem thenTake_takeU32_drop_eq_ok_iff {second : Word → FieldReader β} {b : β} :
    thenTake takeU32 second (p.drop o) = .ok (b, rest) ↔
      o + 4 ≤ p.length ∧ second (wordAt p o) (p.drop (o + 4)) = .ok (b, rest) :=
  thenTake_eq_ok_iff fun _ _ => takeU32_drop_eq_ok_iff

theorem thenTake_takeF64_drop_eq_ok_iff {second : F64 → FieldReader β} {b : β} :
    thenTake takeF64 second (p.drop o) = .ok (b, rest) ↔
      o + 8 ≤ p.length ∧ second (rateAt p o) (p.drop (o + 8)) = .ok (b, rest) :=
  thenTake_eq_ok_iff fun _ _ => takeF64_drop_eq_ok_iff

end Readers

/-! ## The last field of a packet -/

section LastField

variable {α : Type} {p : Packet} {o : Nat}

theorem takeU8_drop_eq_ok_nil_iff {w : Byte} :
    takeU8 (p.drop o) = .ok (w, []) ↔ p.length = o + 1 ∧ w = p.getD o 0 := by
  by_cases h : o < p.length
  · rw [List.drop_eq_getElem_cons h, takeU8, List.getD_eq_getElem _ _ h]
    have hend : p.length ≤ o + 1 ↔ p.length = o + 1 := by omega
    simp [hend, and_comm, eq_comm]
  · have hne : p.length ≠ o + 1 := by omega
    simp [List.drop_of_length_le (Nat.le_of_not_lt h), takeU8, hne]

theorem takeBytes_drop_eq_ok_nil_iff {n : Nat} {f : List Byte} (ho : o ≤ p.length) :
    takeBytes n (p.drop o) = .ok (f, []) ↔ p.length = o + n ∧ f = p.drop o := by
  have hend : (o + n ≤ p.length ∧ [] = p.drop (o + n)) ↔ p.length = o + n := by
    rw [eq_comm (a := []), List.drop_eq_nil_iff]
    omega
  rw [takeBytes_drop_eq_ok_iff (.inl ho), hend]
  refine and_congr_right fun hlen => ?_
  rw [List.take_of_length_le (by rw [List.length_drop]; omega)]

/-- A field that carries its own length: a `u32` count `c`, then `size c` bytes, which give the value (30_encoding R43, R44,
R46). -/
def takeCounted (size : Nat → Nat) (value : Nat → List Byte → α) : FieldReader α :=
  thenTake takeU32 fun c => mapField (value c.toNat) (takeBytes (size c.toNat))

theorem takeCounted_drop_eq_ok_nil_iff {size : Nat → Nat} {value : Nat → List Byte → α} {a : α} :
    takeCounted size value (p.drop o) = .ok (a, []) ↔
      (o + 4 ≤ p.length ∧ p.length = o + 4 + size (u32At p o)) ∧ a = value (u32At p o) (p.drop (o + 4)) := by
  rw [takeCounted, thenTake_takeU32_drop_eq_ok_iff, wordAt_toNat, and_assoc]
  exact and_congr_right fun h => mapField_eq_ok_iff fun _ => takeBytes_drop_eq_ok_nil_iff h

theorem takeKey_eq_takeCounted (bs : Packet) : takeKey bs = takeCounted id (fun _ f => f) bs := by
  cases h : takeU32 bs with
  | error r => simp only [takeKey, takeCounted, thenTake, h]
  | ok c => cases hf : takeBytes c.1.toNat c.2 <;> simp only [takeKey, takeCounted, thenTake, mapField, h, hf, id]

theorem takeBits_eq_takeCounted (bs : Packet) :
    takeBits bs = takeCounted payloadBytes (fun l f => (unpackBits f).take l) bs := by
  cases h : takeU32 bs with
  | error r => simp only [takeBits, takeCounted, thenTake, h]
  | ok l =>
    cases hf : takeBytes (payloadBytes l.1.toNat) l.2 <;> simp only [takeBits, takeCounted, thenTake, mapField, h, hf]

theorem takeText_eq_takeCounted {bs rest : Packet} {c : Word} (h : takeU32 bs = .ok (c, rest))
    (hc : c.toNat ≤ maxTextLength) : takeText bs = takeCounted (2 * ·) unitsOf bs := by
  cases hf : takeBytes (2 * c.toNat) rest <;>
    simp only [takeText, takeCounted, thenTake, mapField, h, hf, if_neg (Nat.not_lt.mpr hc)]

theorem takeKey_drop_eq_ok_nil_iff {key : Key} :
    takeKey (p.drop o) = .ok (key, []) ↔
      (o + 4 ≤ p.length ∧ p.length = o + 4 + u32At p o) ∧ key = p.drop (o + 4) := by
  rw [takeKey_eq_takeCounted, takeCounted_drop_eq_ok_nil_iff, id]

theorem takeBits_drop_eq_ok_nil_iff {bits : Bits} :
    takeBits (p.drop o) = .ok (bits, []) ↔
      (o + 4 ≤ p.length ∧ p.length = o + 4 + payloadBytes (u32At p o)) ∧
        bits = (unpackBits (p.drop (o + 4))).take (u32At p o) := by
  rw [takeBits_eq_takeCounted, takeCounted_drop_eq_ok_nil_iff]

theorem takeText_drop_eq_ok_nil_iff {text : Text} :
    takeText (p.drop o) = .ok (text, []) ↔
      (o + 4 ≤ p.length ∧ u32At p o ≤ maxTextLength ∧ p.length = o + 4 + 2 * u32At p o) ∧
        text = unitsOf (u32At p o) (p.drop (o + 4)) := by
  cases hc : takeU32 (p.drop o) with
  | error r =>
    have h4 : ¬ o + 4 ≤ p.length := fun h4 => by
      cases hc.symm.trans (takeU32_drop_eq_ok_iff.mpr ⟨⟨h4, rfl⟩, rfl⟩)
    simp [takeText, hc, h4]
  | ok field =>
    obtain ⟨⟨h4, _⟩, hv⟩ := takeU32_drop_eq_ok_iff.mp hc
    have hcount : field.1.toNat = u32At p o := by rw [hv, wordAt_toNat]
    by_cases hmax : u32At p o ≤ maxTextLength
    · rw [takeText_eq_takeCounted hc (hcount ▸ hmax), takeCounted_drop_eq_ok_nil_iff]
      simp only [hmax, true_and]
    · simp [takeText, hc, hcount, Nat.lt_of_not_le hmax, hmax]

end LastField

/-! ## Payloads by position -/

/-- Bit `j` of a payload is bit `7 − (j mod 8)` of byte `j div 8` (30_encoding R44). -/
theorem unpackBits_getD (bs : List Byte) (j : Nat) :
    (unpackBits bs).getD j false = (bs.getD (j / 8) 0).getLsbD (7 - j % 8) := by
  induction bs generalizing j with
  | nil => simp [unpackBits]
  | cons b bs ih =>
    have hcons : unpackBits (b :: bs) = binN 8 b.toNat ++ unpackBits bs := rfl
    rw [hcons]
    by_cases hj : j < 8
    · have hlen : j < (binN 8 b.toNat).length := by rwa [binN_length]
      rw [List.getD_append _ _ _ _ hlen, List.getD_eq_getElem _ _ hlen, binN_getElem, Nat.div_eq_of_lt hj,
        Nat.mod_eq_of_lt hj, List.getD_cons_zero, BitVec.getLsbD, Nat.testBit_eq_decide_div_mod_eq]
    · have hdiv : j / 8 = (j - 8) / 8 + 1 := by omega
      have hmod : j % 8 = (j - 8) % 8 := by omega
      rw [List.getD_append_right _ _ _ _ (by rw [binN_length]; omega), binN_length, ih, hdiv, hmod,
        List.getD_cons_succ]

theorem unitsOf_getD_toNat {c j : Nat} (bs : List Byte) (hj : j < c) :
    ((unitsOf c bs).getD j 0).toNat = byteAt bs (2 * j) + 2 ^ 8 * byteAt bs (2 * j + 1) := by
  have hlo := byteAt_lt bs (2 * j)
  have hhi := byteAt_lt bs (2 * j + 1)
  rw [List.getD_eq_getElem _ _ (by rwa [unitsOf_length])]
  simp only [unitsOf, List.getElem_map, chunks_getElem, leNat_take_two, BitVec.toNat_ofNat]
  omega

theorem byteAt_drop (p : Packet) (o j : Nat) : byteAt (p.drop o) j = byteAt p (o + j) := by
  simp [byteAt]

/-! ## The formats of R48 -/

/-- The packet has the length that the format of the opcode gives it, and a legal `text` count (30_encoding R48,
R56). -/
def HasFormat (p : Packet) : Opcode → Prop
  | .hash | .sbfInsert => 9 ≤ p.length ∧ p.length = 9 + u32At p 5
  | .sbfInit => p.length = 14
  | .sbfCfg => p.length = 10
  | .sbfSeal | .sbfInfo | .sbfExport => p.length = 1
  | .sbfQuery => 5 ≤ p.length ∧ p.length = 5 + u32At p 1
  | .b15Enc => 5 ≤ p.length ∧ p.length = 5 + (u32At p 1 + 7) / 8
  | .b15Dec => 5 ≤ p.length ∧ u32At p 1 ≤ 286331154 ∧ p.length = 5 + 2 * u32At p 1

/-- The command whose operands stand at the offsets of the opcode's format (30_encoding R48). -/
def commandAt (p : Packet) : Opcode → Instr
  | .hash => .hash (wordAt p 1) (p.drop 9)
  | .sbfInit => .sbfInit (wordAt p 1) (rateAt p 5) (p.getD 13 0)
  | .sbfCfg => .sbfCfg (wordAt p 1) (wordAt p 5) (p.getD 9 0)
  | .sbfInsert => .sbfInsert (wordAt p 1) (p.drop 9)
  | .sbfSeal => .sbfSeal
  | .sbfQuery => .sbfQuery (p.drop 5)
  | .sbfInfo => .sbfInfo
  | .sbfExport => .sbfExport
  | .b15Enc => .b15Enc ((unpackBits (p.drop 5)).take (u32At p 1))
  | .b15Dec => .b15Dec (unitsOf (u32At p 1) (p.drop 5))

theorem Opcode.mem_all (op : Opcode) : op ∈ Opcode.all := by
  cases op <;> decide

theorem isCommandPacket_iff (p : Packet) :
    IsCommandPacket p ↔ ∃ op : Opcode, p.head? = some op.code ∧ HasFormat p op := by
  have hlisted : (∃ op : Opcode, p.head? = some op.code ∧ HasFormat p op) ↔
      ∃ op ∈ Opcode.all, p.head? = some op.code ∧ HasFormat p op := by simp [Opcode.mem_all]
  rw [hlisted]
  simp [Opcode.all, IsCommandPacket, HasFormat, Opcode.code]

/-- An operand reader reads a packet to its end exactly when the packet has the length of the format. The lengths that
the fixed fields ask for follow from it. -/
theorem readOperands_eq_ok_nil_iff {p : Packet} {op : Opcode} {i : Instr} (hp : 1 ≤ p.length) :
    readOperands op (p.drop 1) = .ok (i, []) ↔ HasFormat p op ∧ i = commandAt p op := by
  have hnone : ∀ j : Instr, (.ok (j, p.drop 1) : Except Reject (Instr × Packet)) = .ok (i, []) ↔
      p.length = 1 ∧ i = j := fun j => by
    rw [Except.ok.injEq, Prod.mk.injEq, List.drop_eq_nil_iff, Nat.le_antisymm_iff, and_iff_left hp, and_comm,
      eq_comm (a := j)]
  cases op with
  | hash | sbfInsert =>
    rw [readOperands, thenTake_takeU32_drop_eq_ok_iff, mapField_eq_ok_iff fun _ => takeKey_drop_eq_ok_nil_iff]
    exact and_iff_right_of_imp fun ⟨⟨h9, _⟩, _⟩ => by omega
  | sbfInit =>
    rw [readOperands, thenTake_takeU32_drop_eq_ok_iff, thenTake_takeF64_drop_eq_ok_iff,
      mapField_eq_ok_iff fun _ => takeU8_drop_eq_ok_nil_iff, ← and_assoc]
    exact and_iff_right_of_imp fun ⟨hlen, _⟩ => by omega
  | sbfCfg =>
    rw [readOperands, thenTake_takeU32_drop_eq_ok_iff, thenTake_takeU32_drop_eq_ok_iff,
      mapField_eq_ok_iff fun _ => takeU8_drop_eq_ok_nil_iff, ← and_assoc]
    exact and_iff_right_of_imp fun ⟨hlen, _⟩ => by omega
  | sbfSeal | sbfInfo | sbfExport => exact hnone _
  | sbfQuery => exact mapField_eq_ok_iff fun _ => takeKey_drop_eq_ok_nil_iff
  | b15Enc => exact mapField_eq_ok_iff fun _ => takeBits_drop_eq_ok_nil_iff
  | b15Dec => exact mapField_eq_ok_iff fun _ => takeText_drop_eq_ok_nil_iff

/-- The decoder by offsets: what decodes is a packet of its opcode's format, and the command is the one at the format's
offsets (30_encoding R48 to R51). -/
theorem decode_eq_ok_iff {p : Packet} {i : Instr} :
    decode p = .ok i ↔ ∃ op : Opcode, p.head? = some op.code ∧ HasFormat p op ∧ i = commandAt p op := by
  constructor
  · intro h
    obtain ⟨op, bs, rfl, hread⟩ := decode_ok h
    exact ⟨op, rfl, (readOperands_eq_ok_nil_iff (Nat.le_add_left 1 _)).mp hread⟩
  · rintro ⟨op, hop, hformat⟩
    obtain ⟨bs, rfl⟩ := List.head?_eq_some_iff.mp hop
    exact decode_of ((readOperands_eq_ok_nil_iff (p := op.code :: bs) (Nat.le_add_left 1 _)).mpr hformat)

theorem commandAt_wf {p : Packet} {op : Opcode} (h : HasFormat p op) : (commandAt p op).wf = true := by
  have h1 := u32At_lt p 1
  have h5 := u32At_lt p 5
  cases op with
  | hash | sbfInsert | sbfQuery =>
    obtain ⟨_, hlen⟩ := h
    exact decide_eq_true (by rw [List.length_drop]; omega)
  | sbfInit | sbfCfg | sbfSeal | sbfInfo | sbfExport => rfl
  | b15Enc => exact decide_eq_true ((List.length_take_le _ _).trans_lt h1)
  | b15Dec =>
    obtain ⟨_, hmax, _⟩ := h
    exact decide_eq_true (by rwa [unitsOf_length])

theorem commandAt_operands {p : Packet} {op : Opcode} (hop : p.head? = some op.code) (h : HasFormat p op) :
    OperandsOf p (commandAt p op) := by
  have halone : p.length = 1 → p = [op.code] := fun hlen => by
    obtain ⟨bs, rfl⟩ := List.head?_eq_some_iff.mp hop
    simpa using hlen
  cases op with
  | hash | sbfInsert => exact ⟨hop, wordAt_toNat p 1, rfl⟩
  | sbfInit => exact ⟨hop, wordAt_toNat p 1, rateAt_toNat p 5, rfl⟩
  | sbfCfg => exact ⟨hop, wordAt_toNat p 1, wordAt_toNat p 5, rfl⟩
  | sbfSeal | sbfInfo | sbfExport => exact halone h
  | sbfQuery => exact ⟨hop, rfl⟩
  | b15Enc =>
    obtain ⟨h5, hlen⟩ := h
    have hbits : ((unpackBits (p.drop 5)).take (u32At p 1)).length = u32At p 1 := by
      rw [List.length_take, unpackBits_length, List.length_drop]; omega
    refine ⟨hop, hbits, fun j hj => ?_⟩
    rw [hbits] at hj
    rw [List.getD_eq_getElem?_getD, List.getElem?_take_of_lt hj, ← List.getD_eq_getElem?_getD, unpackBits_getD]
    simp
  | b15Dec =>
    refine ⟨hop, unitsOf_length _ _, fun j hj => ?_⟩
    rw [unitsOf_length] at hj
    rw [unitsOf_getD_toNat _ hj, byteAt_drop, byteAt_drop, ← Nat.add_assoc, Nat.add_right_comm 5]

/-- Settles O5: the packet has its opcode's format, so the operands at the format's offsets are what decodes. -/
theorem commandPacketsDecodeByOffset : Obligations.CommandPacketsDecodeByOffset := by
  intro p hp
  obtain ⟨op, hop, hformat⟩ := (isCommandPacket_iff p).mp hp
  exact ⟨commandAt p op, decode_eq_ok_iff.mpr ⟨op, hop, hformat, rfl⟩, commandAt_wf hformat,
    commandAt_operands hop hformat⟩

/-- A packet that is no command is refused by the decoder (30_encoding R50, R51). -/
theorem decode_of_not_isCommandPacket {p : Packet} (h : ¬ IsCommandPacket p) : ∃ r, decode p = .error r := by
  cases hd : decode p with
  | error r => exact ⟨r, rfl⟩
  | ok i =>
    obtain ⟨op, hop, hformat, _⟩ := decode_eq_ok_iff.mp hd
    exact absurd ((isCommandPacket_iff p).mpr ⟨op, hop, hformat⟩) h

/-- Settles O4: only packets of a format decode, and a packet that does not is answered `IllegalCommand`. -/
theorem otherPacketsAreIllegalCommands : Obligations.OtherPacketsAreIllegalCommands := by
  intro s p later hinbox hp
  obtain ⟨r, hr⟩ := decode_of_not_isCommandPacket hp
  calc step s
      _ = runPacket p { s with inbox := later } := by rw [step, hinbox]; rfl
      _ = raise .illegalCommand { s with inbox := later } := by rw [runPacket, hr]
      _ = .next { s with inbox := later, responses := s.responses ++ [[0x05]] } := rfl

end Sys2Proof
end

section
/-! Family 40_hash: the hash unit by block index (R60 to R69).

Each piece of `hashKey` is described by the bytes of the key at their positions (20_memory R28, R29), in the order of
the pseudocode: the block words, the tail word, the two mixings, the accumulator. `hashKey_eq_hashByRule` joins them. -/

namespace Sys2Proof

open Sys2Proof.Machine Sys2Proof.Spec

/-! ## The digest field -/

/-- The bytes of a `u32` field by bit position (30_encoding R42). -/
theorem putU32_eq_u32Bytes (v : Word) : putU32 v = u32Bytes v := by
  simp only [putU32, leBytes, u32Bytes, List.cons.injEq, and_true, Nat.div_div_eq_div_mul, Nat.reduceMul]
  refine ⟨?_, ?_, ?_, ?_⟩ <;> apply BitVec.eq_of_toNat_eq <;> simp [Nat.shiftRight_eq_div_pow]

/-! ## Blocks and tail by position -/

theorem hashBlocks_eq_map_keyBlock (key : Key) :
    hashBlocks key = (List.range (key.length / 4)).map (keyBlock key) := by
  refine List.ext_getElem (by simp [hashBlocks]) fun i _ _ => ?_
  simp only [hashBlocks, List.getElem_map, List.getElem_range, chunks_getElem, leNat_take_four, keyBlock]

theorem hashTail_length (key : Key) : (hashTail key).length = key.length % 4 := by
  rw [hashTail, List.length_drop]
  omega

theorem hashTail_eq_nil_iff (key : Key) : hashTail key = [] ↔ key.length % 4 = 0 := by
  rw [← List.length_eq_zero_iff, hashTail_length]

/-- A tail has at most three bytes, so the three positions that `keyTail` reads cover it. -/
theorem ofNat_leNat_hashTail (key : Key) : BitVec.ofNat 32 (leNat (hashTail key)) = keyTail key := by
  have hlen : (hashTail key).length ≤ 3 := by
    rw [hashTail_length]
    omega
  have hvalue : leNat (hashTail key) = leNat ((key.drop (4 * (key.length / 4))).take 3) := by
    rw [← hashTail, List.take_of_length_le hlen]
  rw [hvalue, keyTail]
  simp only [leNat_take_succ, List.take_zero, leNat, Nat.add_assoc, Nat.reduceAdd]
  congr 1
  omega

/-! ## The mixing steps with the constants of R69 -/

/-- The rotation of 00_scope R8 is the library's, for the amounts R8 allows. -/
theorem rotl32_eq_rotateLeft (a : Word) {r : Nat} (hr : r < 32) : rotl32 a r = a.rotateLeft r := by
  rw [rotl32, BitVec.rotateLeft_def, Nat.mod_eq_of_lt hr]

theorem mixWord_eq (k1 : Word) : mixWord k1 = (k1 * 0xCC9E2D51).rotateLeft 15 * 0x1B873593 := by
  rw [mixWord, rotl32_eq_rotateLeft _ (by decide), hashC1, hashC2]

theorem blockMix_eq (h k1 : Word) : blockMix h k1 = (h ^^^ mixWord k1).rotateLeft 13 * 5 + 0xE6546B64 := by
  rw [blockMix, rotl32_eq_rotateLeft _ (by decide), hashN1]

/-- The accumulator by block index: the blocks in order, then the tail when bytes are left (40_hash R63, R64). -/
theorem hashBytes_eq (h : Word) (key : Key) :
    hashBytes h key =
      let blocks := (List.range (key.length / 4)).foldl (fun h i => blockMix h (keyBlock key i)) h
      if key.length % 4 = 0 then blocks else blocks ^^^ mixWord (keyTail key) := by
  simp only [hashBytes, tailMix, hashBlocks_eq_map_keyBlock, List.foldl_map, hashTail_eq_nil_iff, ofNat_leNat_hashTail]

/-- The model's hash is the pseudocode's, on every key and seed (40_hash R60 to R66). -/
theorem hashKey_eq_hashByRule (key : Key) (seed : Word) : hashKey key seed = hashByRule key seed := by
  by_cases hkey : key = []
  · rw [hashKey, hashByRule, if_pos hkey, if_pos (List.length_eq_zero_iff.mpr hkey)]
  · rw [hashKey, hashByRule, if_neg hkey, if_neg (mt List.length_eq_zero_iff.mp hkey), hashBytes_eq]
    simp only [blockMix_eq, mixWord_eq, fmix, hashF1, hashF2]

/-! ## The command HASH -/

/-- Settles O9: HASH answers the one field `hashKey key seed`, which is the pseudocode's digest. -/
theorem hashCommandFollowsThePseudocode : Obligations.HashCommandFollowsThePseudocode := by
  intro seed key s
  calc exec (.hash seed key) s
      _ = .next (s.answered (0x00 :: putU32 (hashKey key seed))) := execHash_eq seed key s
      _ = .next (s.answered (0x00 :: u32Bytes (hashByRule key seed))) := by
        rw [putU32_eq_u32Bytes, hashKey_eq_hashByRule]

/-- Settles O10: the digest by the pseudocode, whose first case is the empty key. -/
theorem emptyKeyHashesToZero : Obligations.EmptyKeyHashesToZero := by
  intro seed s
  have hzero : u32Bytes (hashByRule [] seed) = [0, 0, 0, 0] := by
    rw [hashByRule, if_pos List.length_nil]
    decide
  rw [hashCommandFollowsThePseudocode seed [] s, hzero]

end Sys2Proof
end

section
/-! Family 41_filter: the commands of the filter unit by their rules (R71 to R82) and the laws of a sealed query
(R83 to R85).

The candidate list is tied to the rule's candidates once, and each command's answer is read off the model's lemma for
it. The three laws are one loop invariant, `HoldsInBuild`: each insertion adds its frequency to the floor under the
key's candidate slots, and the query answers one of those slots. -/

namespace Sys2Proof

open Sys2Proof.Machine Sys2Proof.Spec

/-! ## The candidates of a key -/

theorem isCandidate_iff_mem_candidates {s : State} {key : Key} {j : Nat} :
    IsCandidate s key j ↔ j ∈ s.candidates key := by
  simp only [State.mem_candidates, IsCandidate, slotIndex, eq_comm]

theorem isLeastCandidate_of_minCandidate {s : State} {key : Key} {mn : Nat} (h : s.minCandidate key = .ok mn) :
    IsLeastCandidate s key mn := by
  obtain ⟨hle, j, hj, hmn⟩ := State.minCandidate_ok h
  exact ⟨⟨j, isCandidate_iff_mem_candidates.mpr hj, hmn⟩,
    fun i hi => (hle i (isCandidate_iff_mem_candidates.mp hi)).2⟩

/-- Settles O11: the model's candidate list, with the hash by the pseudocode. -/
theorem filterUsesTheOneHash : Obligations.FilterUsesTheOneHash := by
  intro s key j
  rw [← isCandidate_iff_mem_candidates, IsCandidate]
  simp only [hashKey_eq_hashByRule]

/-! ## Configuring a filter -/

theorem widthOk_eq_false {w : Byte} (h : ¬ (1 ≤ w.toNat ∧ w.toNat ≤ 31)) : widthOk w = false :=
  Bool.eq_false_iff.mpr (mt (widthOk_iff w).mp h)

/-- A legal width fits the 5-bit register (10_state R15). -/
theorem setWidth_toNat_of_legal {w : Byte} (h : w.toNat ≤ 31) : (w.setWidth 5).toNat = w.toNat := by
  rw [BitVec.toNat_setWidth]
  omega

/-- Settles O17: each clause is one branch of the rule's checks, and the effect is that of `State.configure`. -/
theorem sbfInitFollowsItsRule : Obligations.SbfInitFollowsItsRule := by
  intro n p w s
  refine ⟨fun hw => ?_, fun h1 h31 hp => ?_, fun h1 h31 hp hn => ?_, fun h1 h31 hp hn hm => ?_,
    fun h1 h31 hp hn hm hmax => ?_⟩
  · rw [exec, execSbfInit, widthOk_eq_false hw]
    rfl
  · rw [exec, execSbfInit, (widthOk_iff w).mpr ⟨h1, h31⟩, hp]
    rfl
  · rw [exec, execSbfInit, (widthOk_iff w).mpr ⟨h1, h31⟩, hp, if_pos hn]
    rfl
  · rw [exec, execSbfInit, (widthOk_iff w).mpr ⟨h1, h31⟩, hp, if_neg hn, if_pos hm]
    rfl
  · have hmWord : (BitVec.ofNat 32 (sizingM n p)).toNat = sizingM n p := by
      have := Config.mMax_le
      rw [BitVec.toNat_ofNat]
      omega
    have hkWord : (BitVec.ofNat 32 (sizingK n p)).toNat = sizingK n p := by
      have := (sizingK_bounds hn hm hmax).2
      rw [BitVec.toNat_ofNat]
      omega
    refine ⟨_, execSbfInit_legal s ((widthOk_iff w).mpr ⟨h1, h31⟩) hp hn (by omega) hmax, rfl,
      setWidth_toNat_of_legal h31, hkWord, hmWord, fun j hj => ?_, fun j hj => ?_, rfl, rfl, ?_⟩
    · rw [State.answered_slot, State.configure_slot, hmWord, if_pos hj]
    · rw [State.answered_slot, State.configure_slot, hmWord, if_neg (Nat.not_lt.mpr hj)]
    · simp [putU32_eq_u32Bytes]

/-- Settles O19: the first failing check answers `InvalidParameter`, and the effect is that of `State.configure`. -/
theorem sbfCfgFollowsItsRule : Obligations.SbfCfgFollowsItsRule := by
  intro m k w s
  refine ⟨fun hbad => ?_, fun h1 h31 hm hmax hk => ?_⟩
  · rw [exec, execSbfCfg]
    by_cases hw : 1 ≤ w.toNat ∧ w.toNat ≤ 31
    · by_cases hm : m = 0 ∨ Config.mMax < m.toNat
      · rw [(widthOk_iff w).mpr hw, if_pos hm]
        rfl
      · have hk : k = 0 := by tauto
        rw [(widthOk_iff w).mpr hw, if_neg hm, if_pos hk]
        rfl
    · rw [widthOk_eq_false hw]
      rfl
  · refine ⟨_, execSbfCfg_legal s ((widthOk_iff w).mpr ⟨h1, h31⟩) hm hmax hk, rfl, setWidth_toNat_of_legal h31,
      rfl, rfl, fun j hj => ?_, fun j hj => ?_, rfl, rfl, rfl⟩
    · rw [State.answered_slot, State.configure_slot, if_pos hj]
    · rw [State.answered_slot, State.configure_slot, if_neg (Nat.not_lt.mpr hj)]

/-! ## Inserting and sealing -/

/-- Settles O21: under the invariant the insertion answers, and it raises the candidate slots and no others. -/
theorem sbfInsertFollowsItsRule : Obligations.SbfInsertFollowsItsRule := by
  intro freq key s
  refine ⟨fun hp => whenPhase_of_ne hp _, fun hinv hp => ?_⟩
  obtain ⟨t, ht⟩ := hinv.insert_answers (hp.trans_ne (by decide)) freq key
  obtain ⟨mn, hmn, -, hraised, hkept, -⟩ := State.insert_slots ht
  obtain ⟨hphase, hw, hk, hm, hresets, hinbox, hresponses⟩ := State.insert_frame ht
  refine ⟨t.answered [0x00], mn, execSbfInsert_build hp ht, isLeastCandidate_of_minCandidate hmn,
    fun j hj => hraised j (isCandidate_iff_mem_candidates.mp hj),
    fun j hj => hkept j (mt isCandidate_iff_mem_candidates.mpr hj), hphase, hw, hk, hm, hresets, hinbox, ?_⟩
  rw [State.answered_responses, hresponses]

/-- Settles O25: the two cases of the phase check. -/
theorem sbfSealFollowsItsRule : Obligations.SbfSealFollowsItsRule :=
  fun _ => ⟨fun hp => execSbfSeal_build hp, fun hp => whenPhase_of_ne hp _⟩

/-! ## Reading a filter -/

/-- Settles O26: under the invariant the least candidate exists, and no slot is above the cap. -/
theorem sbfQueryFollowsItsRule : Obligations.SbfQueryFollowsItsRule := by
  intro key s
  refine ⟨fun hp => whenPhase_of_ne hp _, fun hinv hp => ?_⟩
  obtain ⟨mn, hmn, hcap⟩ := hinv.minCandidate (hp.trans_ne (by decide)) key
  refine ⟨mn, isLeastCandidate_of_minCandidate hmn, hcap, ?_⟩
  rw [← putU32_eq_u32Bytes]
  exact execSbfQuery_sealed hp hmn

/-- The width as a `u32` field: it fits the first byte. -/
theorem u32Bytes_width (w : BitVec 5) : u32Bytes (w.setWidth 32) = w.setWidth 8 :: [0, 0, 0] := by
  revert w
  decide

/-- Settles O27: the three fields by their bytes. -/
theorem sbfInfoFollowsItsRule : Obligations.SbfInfoFollowsItsRule := by
  intro s
  refine ⟨fun hp => whenPhase_of_ne hp _, fun hp => ?_⟩
  rw [← u32Bytes_width]
  simp only [← putU32_eq_u32Bytes]
  exact execSbfInfo_sealed hp

/-! ## Bit strings by position -/

/-- Element `c·i + r` of a joined list whose pieces all have length `c` is element `r` of piece `i`. -/
theorem flatMap_getD_of_length {α β : Type} {c : Nat} {f : β → List α} (hf : ∀ b, (f b).length = c) (bs : List β)
    {i r : Nat} (hi : i < bs.length) (hr : r < c) (d : α) :
    (bs.flatMap f).getD (c * i + r) d = (f bs[i]).getD r d := by
  have hpiece : f bs[i] = ((bs.flatMap f).drop (c * i)).take c := by
    have hi' : i < (chunks c bs.length (bs.flatMap f)).length := by rwa [chunks_length]
    rw [← chunks_getElem c bs.length i _ hi']
    simp only [chunks_flatten_map c f hf, List.getElem_map]
  rw [hpiece]
  simp [List.getD_eq_getElem?_getD, List.getElem?_take_of_lt hr]

/-- `val` of 00_scope R8, as the sum that defines it. -/
theorem val_eq_sum (s : Bits) :
    val s = ∑ r ∈ Finset.range s.length, if s.getD r false then 2 ^ (s.length - 1 - r) else 0 := by
  induction s with
  | nil => rfl
  | cons b s ih =>
    rw [List.length_cons, Finset.sum_range_succ', val, ih, Nat.add_comm]
    congr 1
    · refine Finset.sum_congr rfl fun r _ => ?_
      rw [List.getD_cons_succ, show s.length + 1 - 1 - (r + 1) = s.length - 1 - r by omega]
    · cases b <;> simp

/-- Padding adds only bits that read 0. -/
theorem padTo_getD (n : Nat) (s : Bits) (r : Nat) : (padTo n s).getD r false = s.getD r false := by
  by_cases hr : r < s.length
  · rw [padTo, List.getD_append _ _ _ _ hr]
  · have hle : s.length ≤ r := Nat.le_of_not_lt hr
    rw [padTo, List.getD_append_right _ _ _ _ hle, List.getD_eq_default s _ hle, List.getD_eq_getElem?_getD,
      List.getElem?_getD_replicate_default_eq]

/-- The bytes of a `bits` field by position (30_encoding R44). -/
theorem putBits_eq_bitsField (s : Bits) : putBits s = bitsField s := by
  rw [putBits, bitsField, putU32_eq_u32Bytes]
  congr 1
  refine List.ext_getElem (by simp [payloadBytes]) fun i _ _ => ?_
  simp only [packBits, List.getElem_map, List.getElem_range, chunks_getElem, val_eq_sum]
  rw [padTo_length 8 _ (by rw [List.length_take]; omega)]
  congr 1
  refine Finset.sum_congr rfl fun r hr => ?_
  have hbit : ((s.drop (8 * i)).take 8).getD r false = s.getD (8 * i + r) false := by
    simp [List.getD_eq_getElem?_getD, List.getElem?_take_of_lt (Finset.mem_range.mp hr)]
  rw [padTo_getD, hbit]

/-- Bit `r` of `bin_n(v)` is bit `n − 1 − r` of the word (00_scope R8). -/
theorem binN_getD_toNat {w n r : Nat} (v : BitVec w) (hr : r < n) :
    (binN n v.toNat).getD r false = v.getLsbD (n - 1 - r) := by
  have hlen : r < (binN n v.toNat).length := by rwa [binN_length]
  rw [List.getD_eq_getElem _ _ hlen, binN_getElem, BitVec.getLsbD, Nat.testBit_eq_decide_div_mod_eq]

/-! ## The exported counters -/

/-- The exported counters fit a `bits` field: at most 31 bits for each of at most `M_MAX` slots (00_scope R6). -/
theorem Machine.State.Inv.export_length_lt {s : State} (h : s.Inv) (hp : s.phase ≠ .idle) :
    s.m.toNat * s.w.toNat < 2 ^ 32 := by
  have hm : s.m.toNat ≤ 138547332 := (h.size_legal hp).2.trans Config.mMax_le
  have hw : s.w.toNat ≤ 31 := Nat.le_of_lt_succ s.w.isLt
  calc s.m.toNat * s.w.toNat ≤ 138547332 * 31 := Nat.mul_le_mul hm hw
    _ < 2 ^ 32 := by decide

/-- Settles O28: each slot gives `W` bits, so bit `q` is bit `q mod W` of the piece of slot `q div W`. -/
theorem sbfExportFollowsItsRule : Obligations.SbfExportFollowsItsRule := by
  intro s
  refine ⟨fun hp => whenPhase_of_ne hp _, fun hinv hp => ?_⟩
  have hidle : s.phase ≠ .idle := hp.trans_ne (by decide)
  have hpiece : ∀ j, (binN s.w.toNat (s.slot j).toNat).length = s.w.toNat := fun j => binN_length _ _
  have hlen : ((List.range s.m.toNat).flatMap fun j => binN s.w.toNat (s.slot j).toNat).length =
      s.m.toNat * s.w.toNat := by
    rw [flatMap_length_const _ _ hpiece, List.length_range, Nat.mul_comm]
  refine ⟨_, ?_, hlen, hlen ▸ hinv.export_length_lt hidle, fun q hq => ?_⟩
  · rw [← putBits_eq_bitsField]
    exact execSbfExport_sealed hp s.exportBits_eq
  · have hslot : q / s.w.toNat < (List.range s.m.toNat).length := by
      rw [List.length_range]
      exact Nat.div_lt_of_lt_mul (by rwa [Nat.mul_comm])
    have hbit : q % s.w.toNat < s.w.toNat := Nat.mod_lt _ (hinv.width_legal hidle)
    have hget := flatMap_getD_of_length hpiece _ hslot hbit false
    rwa [Nat.div_add_mod, List.getElem_range, binN_getD_toNat _ hbit] at hget

/-! ## The phase discipline -/

/-- Settles O29: the phase clause of each command's rule; and `SBF_INIT` and `SBF_CFG` answer OK, 01 or 02. -/
theorem phaseDisciplineOfFilterCommands : Obligations.PhaseDisciplineOfFilterCommands := by
  intro s
  refine ⟨fun hp freq key i hi => ?_, fun hp key i hi => ?_, fun n p w m k i hi t ht => ?_⟩
  · simp only [List.mem_cons, List.not_mem_nil, or_false] at hi
    rcases hi with rfl | rfl
    · exact (sbfInsertFollowsItsRule freq key s).1 hp
    · exact (sbfSealFollowsItsRule s).2 hp
  · simp only [List.mem_cons, List.not_mem_nil, or_false] at hi
    rcases hi with rfl | rfl | rfl
    · exact (sbfQueryFollowsItsRule key s).1 hp
    · exact (sbfInfoFollowsItsRule s).1 hp
    · exact (sbfExportFollowsItsRule s).1 hp
  · simp only [List.mem_cons, List.not_mem_nil, or_false] at hi
    rcases hi with rfl | rfl
    · rcases execSbfInit_next ht with rfl | rfl | ⟨-, -, -, -, -, rfl⟩
      · simp
      · simp
      · simp
    · rcases execSbfCfg_next ht with rfl | ⟨-, -, -, -, rfl⟩
      · simp
      · simp

/-! ## The floor under the candidate slots of a key -/

/-- No insertion lowers a slot (41_filter R89). -/
theorem Machine.State.slot_le_insert {s t : State} {freq : Word} {key : Key} (ht : s.insert freq key = .ok t)
    (j : Nat) : (s.slot j).toNat ≤ (t.slot j).toNat := by
  obtain ⟨mn, -, -, hraised, hkept, -⟩ := State.insert_slots ht
  by_cases hj : j ∈ s.candidates key
  · rw [hraised j hj]
    exact Nat.le_max_left _ _
  · rw [hkept j hj]

/-- The step of 41_filter R83: the least candidate is at or above the floor, so the saturated sum is at or above the
floor of the total. -/
theorem Spec.HoldsFloor.insert {s t : State} {x key : Key} {F : Nat} {freq : Word} (hF : HoldsFloor s x F)
    (ht : s.insert freq key = .ok t) : HoldsFloor t x (F + if key = x then freq.toNat else 0) := by
  obtain ⟨mn, hmn, -, hraised, -⟩ := State.insert_slots ht
  obtain ⟨-, hw, hk, hm, -⟩ := State.insert_frame ht
  intro j hj
  rw [IsCandidate, hk, hm] at hj
  rw [hw]
  by_cases hkey : key = x
  · subst hkey
    obtain ⟨i, hi, hvalue⟩ := (isLeastCandidate_of_minCandidate hmn).1
    have hfloor : min F (2 ^ s.w.toNat - 1) ≤ mn := hvalue ▸ hF i hi
    rw [if_pos rfl, hraised j (isCandidate_iff_mem_candidates.mp hj), satAdd, State.cap]
    omega
  · rw [if_neg hkey, Nat.add_zero]
    exact (hF j hj).trans (State.slot_le_insert ht j)

/-- The loop invariant of a list of insertions: a filter of width `w` under construction with the floor `F` under the
candidate slots of `x`. -/
structure HoldsInBuild (w : BitVec 5) (x : Key) (F : Nat) (s : State) : Prop where
  inv : s.Inv
  phase : s.phase = .build
  width : s.w = w
  floor : HoldsFloor s x F

theorem HoldsInBuild.of_freshFilter {s : State} (h : FreshFilter s) (x : Key) : HoldsInBuild s.w x 0 s :=
  ⟨h.inv, h.phase, rfl, fun _ _ => by rw [Nat.zero_min]; exact Nat.zero_le _⟩

theorem HoldsInBuild.sbfInsert {w : BitVec 5} {x : Key} {F : Nat} {s : State} (h : HoldsInBuild w x F s)
    (freq : Word) (key : Key) : ∃ t, exec (.sbfInsert freq key) s = .next t ∧
      HoldsInBuild w x (F + if key = x then freq.toNat else 0) t := by
  have hidle : s.phase ≠ .idle := h.phase.trans_ne (by decide)
  obtain ⟨t, ht⟩ := h.inv.insert_answers hidle freq key
  obtain ⟨hphase, hw, -⟩ := State.insert_frame ht
  have hfloor := h.floor.insert ht
  exact ⟨t.answered [0x00], execSbfInsert_build h.phase ht, (h.inv.insert hidle ht).answered _,
    hphase.trans h.phase, hw.trans h.width, hfloor⟩

/-! ## Runs of commands -/

theorem runCommands_cons {i : Instr} {is : List Instr} {s t : State} (h : exec i s = .next t) :
    runCommands (i :: is) s = runCommands is t := by
  rw [runCommands, h]

theorem totalFrequency_cons (key : Key) (freq : Word) (pairs : List (Key × Word)) (x : Key) :
    totalFrequency ((key, freq) :: pairs) x = (if key = x then freq.toNat else 0) + totalFrequency pairs x := by
  by_cases h : key = x
  · simp [totalFrequency, h]
  · simp [totalFrequency, h]

/-- A list of insertions raises the floor by the total frequency of the key, and the commands after it run
from there. -/
theorem HoldsInBuild.insertions {w : BitVec 5} {x : Key} {F : Nat} {s : State} (h : HoldsInBuild w x F s)
    (pairs : List (Key × Word)) : ∃ t, HoldsInBuild w x (F + totalFrequency pairs x) t ∧
      ∀ later, runCommands (insertions pairs ++ later) s = runCommands later t := by
  induction pairs generalizing F s with
  | nil => exact ⟨s, h, fun _ => rfl⟩
  | cons pair pairs ih =>
    obtain ⟨key, freq⟩ := pair
    obtain ⟨u, hu, hbuild⟩ := h.sbfInsert freq key
    obtain ⟨t, ht, hrun⟩ := ih hbuild
    rw [Nat.add_assoc, ← totalFrequency_cons] at ht
    exact ⟨t, ht, fun later => (runCommands_cons hu).trans (hrun later)⟩

/-- Sealing and querying a key answers at least its floor, capped, and at most the cap. -/
theorem HoldsInBuild.seal_query {w : BitVec 5} {x : Key} {F : Nat} {s : State} (h : HoldsInBuild w x F s) :
    ∃ t f, runCommands [.sbfSeal, .sbfQuery x] s = .next t ∧
      t.responses.getLast? = some (0x00 :: u32Bytes (BitVec.ofNat 32 f)) ∧
      min F (2 ^ w.toNat - 1) ≤ f ∧ f ≤ 2 ^ w.toNat - 1 := by
  obtain ⟨hinv, hphase, rfl, hfloor⟩ := h
  have hsealed := (hinv.with_sealed (hphase.trans_ne (by decide))).answered [0x00]
  obtain ⟨f, ⟨⟨j, hj, hf⟩, -⟩, hcap, hquery⟩ := (sbfQueryFollowsItsRule x _).2 hsealed rfl
  have hseal : exec .sbfSeal s = .next (State.answered { s with phase := .sealed } [0x00]) :=
    execSbfSeal_build hphase
  have hrun : runCommands [.sbfSeal, .sbfQuery x] s = _ := (runCommands_cons hseal).trans (runCommands_cons hquery)
  exact ⟨_, f, hrun, List.getLast?_concat, hf ▸ hfloor j hj, hcap⟩

/-! ## The laws of a sealed query -/

/-- Settles O31: a fresh filter holds the floor 0, the insertions raise it to the total frequency, and the query
answers at least the floor. -/
theorem noUndershoot : Obligations.NoUndershoot := by
  intro s pairs key hfresh
  obtain ⟨t, ht, hrun⟩ := (HoldsInBuild.of_freshFilter hfresh key).insertions pairs
  rw [Nat.zero_add] at ht
  rw [hrun]
  exact ht.seal_query

/-- Settles O33: the cap is at least 1 and below `2^31`, so the bounds of O31 leave no 0 and no wrap. -/
theorem noFalseNegative : Obligations.NoFalseNegative := by
  intro s pairs key hfresh htotal
  obtain ⟨t, f, hrun, hlast, hlow, hhigh⟩ := noUndershoot s pairs key hfresh
  have hwidth : 1 ≤ s.w.toNat := hfresh.inv.width_legal (hfresh.phase.trans_ne (by decide))
  have hone : 2 ≤ 2 ^ s.w.toNat := Nat.le_self_pow (Nat.one_le_iff_ne_zero.mp hwidth) 2
  have hcap : 2 ^ s.w.toNat - 1 < 2 ^ 31 := s.cap_lt
  exact ⟨t, f, hrun, hlast, by omega, by omega⟩

/-- Settles O34: with the total at or above the cap the two bounds of O31 meet. -/
theorem saturationIsExact : Obligations.SaturationIsExact := by
  intro s pairs key hfresh htotal
  obtain ⟨t, f, hrun, hlast, hlow, hhigh⟩ := noUndershoot s pairs key hfresh
  rw [Nat.min_eq_right htotal] at hlow
  obtain rfl : f = 2 ^ s.w.toNat - 1 := Nat.le_antisymm hhigh hlow
  exact ⟨t, hrun, hlast⟩

end Sys2Proof
end

section
/-! Family 42_codec: the Base2p15 codec by position (R95 to R105).

A text is read off its 15-bit groups: `codecGroups` names the groups that `B15_ENC` writes, `groupBits` the bits that
`B15_DEC` reads, and the one joins back what the other cut. What `B15_DEC` accepts is said once, in
`not_isUndecodable_iff`. -/

namespace Sys2Proof

open Sys2Proof.Machine Sys2Proof.Spec

/-! ## The text field -/

/-- The two bytes of a character by bit position (30_encoding R46). -/
theorem leBytes_two_eq_extract (c : CodeUnit) : leBytes 2 c.toNat = [c.extractLsb' 0 8, c.extractLsb' 8 8] := by
  simp only [leBytes, List.cons.injEq, and_true]
  constructor <;> apply BitVec.eq_of_toNat_eq <;> simp [Nat.shiftRight_eq_div_pow]

theorem putText_eq_textField (t : Text) : putText t = textField t := by
  simp only [putText, textField, putU32_eq_u32Bytes, leBytes_two_eq_extract]

theorem decode_textField {text : Text} (h : text.length ≤ maxTextLength) :
    decode (0x21 :: textField text) = .ok (.b15Dec text) := by
  have hread : readOperands .b15Dec (putText text) = .ok (.b15Dec text, []) :=
    mapField_of (by simpa using takeText_put text [] h)
  rw [← putText_eq_textField]
  exact decode_of hread

/-! ## The characters -/

theorem hexVal_eq_some_iff {c : CodeUnit} {pad : Nat} : hexVal c = some pad ↔ IsHexVal c pad := by
  unfold hexVal IsHexVal
  by_cases hdigit : 0x30 ≤ c.toNat ∧ c.toNat ≤ 0x39
  · rw [if_pos hdigit, Option.some.injEq]
    omega
  · by_cases hletter : 0x61 ≤ c.toNat ∧ c.toNat ≤ 0x65
    · rw [if_neg hdigit, if_pos hletter, Option.some.injEq]
      omega
    · rw [if_neg hdigit, if_neg hletter]
      simp only [reduceCtorEq, false_iff]
      omega

theorem isDataChar_iff {c : CodeUnit} : isDataChar c = true ↔ 161 ≤ c.toNat ∧ c.toNat ≤ 32928 := by
  simp [isDataChar]

/-- The 15 bits of a data character are those of its value less 161, most significant first (42_codec R101). -/
theorem binN_dataChar_getD {c : CodeUnit} (hc : isDataChar c = true) {r : Nat} (hr : r < 15) :
    (binN 15 (c.toNat - 161)).getD r false = (c - 161).getLsbD (14 - r) := by
  have hle : (161 : CodeUnit) ≤ c := BitVec.le_def.mpr (isDataChar_iff.mp hc).1
  have hsub : (c - 161).toNat = c.toNat - 161 := BitVec.toNat_sub_of_le hle
  rw [← hsub, binN_getD_toNat _ hr]

/-! ## Encoding -/

/-- The 15-bit groups of the padded string, as `B15_ENC` cuts it (42_codec R96). -/
def codecGroups (s : Bits) : List Bits :=
  chunks 15 ((s.length + padLength s.length) / 15) (s ++ List.replicate (padLength s.length) false)

theorem b15Encode_eq (s : Bits) :
    b15Encode s = headerChar (padLength s.length) :: (codecGroups s).map dataChar := rfl

theorem codecGroups_length (s : Bits) : 15 * (codecGroups s).length = s.length + padLength s.length := by
  rw [codecGroups, chunks_length, length_add_padLength]

theorem length_of_mem_codecGroups {s g : Bits} (hg : g ∈ codecGroups s) : g.length = 15 :=
  (paddedGroups s).1 g hg

theorem codecGroups_flatten (s : Bits) :
    (codecGroups s).flatten = s ++ List.replicate (padLength s.length) false :=
  (paddedGroups s).2

theorem isDataChar_of_mem_encode {s : Bits} {c : CodeUnit} (hc : c ∈ (codecGroups s).map dataChar) :
    isDataChar c = true := by
  obtain ⟨g, hg, rfl⟩ := List.mem_map.mp hc
  exact isDataChar_dataChar (length_of_mem_codecGroups hg)

/-- Bit `j` of group `q` is bit `15q + j` of the string, and 0 in the padding. -/
theorem codecGroups_getElem_getD (s : Bits) {q j : Nat} (hq : q < (codecGroups s).length) (hj : j < 15) :
    (codecGroups s)[q].getD j false = s.getD (15 * q + j) false := by
  have hpad : s ++ List.replicate (padLength s.length) false = padTo (s.length + padLength s.length) s := by
    rw [padTo, Nat.add_sub_cancel_left]
  rw [← padTo_getD (s.length + padLength s.length) s, ← hpad]
  simp only [codecGroups, chunks_getElem]
  simp [List.getD_eq_getElem?_getD, List.getElem?_take_of_lt hj]

/-- A character by the positions of its bits. -/
theorem dataChar_codecGroups (s : Bits) {q : Nat} (hq : q < (codecGroups s).length) :
    dataChar (codecGroups s)[q] = BitVec.ofNat 16
      ((∑ j ∈ Finset.range 15, if s.getD (15 * q + j) false then 2 ^ (14 - j) else 0) + 161) := by
  rw [dataChar, val_eq_sum, length_of_mem_codecGroups (List.getElem_mem hq)]
  refine congrArg (fun v => BitVec.ofNat 16 (v + 161)) (Finset.sum_congr rfl fun j hj => ?_)
  rw [codecGroups_getElem_getD s hq (Finset.mem_range.mp hj)]

theorem b15Encode_eq_textByRule (s : Bits) : b15Encode s = textByRule s := by
  have hdata : (codecGroups s).map dataChar =
      (List.range ((s.length + padLength s.length) / 15)).map fun q => BitVec.ofNat 16
        ((∑ j ∈ Finset.range 15, if s.getD (15 * q + j) false then 2 ^ (14 - j) else 0) + 161) := by
    refine List.ext_getElem (by simp [codecGroups]) fun q hq _ => ?_
    rw [List.getElem_map, List.getElem_map, List.getElem_range, dataChar_codecGroups]
  rw [b15Encode_eq, hdata]
  rfl

theorem exec_b15Enc (bits : Bits) (s : State) :
    exec (.b15Enc bits) s = .next (s.answered (0x00 :: textField (b15Encode bits))) := by
  rw [← putText_eq_textField]
  exact execB15Enc_eq bits s

/-! ## Decoding -/

/-- The bits of the data characters, before the padding is dropped (42_codec R101). -/
def groupBits (rest : Text) : Bits := rest.flatMap fun c => binN 15 (c.toNat - 161)

theorem groupBits_length (rest : Text) : (groupBits rest).length = 15 * rest.length :=
  flatMap_length_const 15 _ (fun _ => binN_length 15 _) rest

/-- Bit `i` is bit `14 - i mod 15` of character `i div 15`, less 161 (42_codec R101). -/
theorem groupBits_getD {rest : Text} (hrest : ∀ c ∈ rest, isDataChar c = true) {i : Nat} (hi : i < 15 * rest.length) :
    (groupBits rest).getD i false = (rest.getD (i / 15) 0 - 161).getLsbD (14 - i % 15) := by
  have hq : i / 15 < rest.length := Nat.div_lt_of_lt_mul hi
  have hr : i % 15 < 15 := Nat.mod_lt _ (by decide)
  have hpiece : ∀ c : CodeUnit, (binN 15 (c.toNat - 161)).length = 15 := fun _ => binN_length 15 _
  have hget := flatMap_getD_of_length hpiece rest hq hr false
  rw [Nat.div_add_mod, binN_dataChar_getD (hrest _ (List.getElem_mem hq)) hr] at hget
  rw [groupBits, hget, List.getD_eq_getElem _ _ hq]

/-- The groups of the encoding come back from its characters. -/
theorem groupBits_encode (s : Bits) :
    groupBits ((codecGroups s).map dataChar) = s ++ List.replicate (padLength s.length) false := by
  rw [groupBits, List.flatMap_map, ← codecGroups_flatten, List.flatMap_def]
  congr 1
  exact (List.map_congr_left fun g hg => group_of_dataChar (length_of_mem_codecGroups hg)).trans (List.map_id' _)

/-- Everything that makes a text decode, and what it decodes to: the converse of `b15Decode_some`. -/
theorem b15Decode_cons {header : CodeUnit} {rest : Text} {pad : Nat} (hpad : hexVal header = some pad)
    (hrest : ∀ c ∈ rest, isDataChar c = true) (hle : pad ≤ 15 * rest.length) :
    b15Decode (header :: rest) = some ((groupBits rest).take (15 * rest.length - pad)) := by
  have hall : rest.all isDataChar = true := List.all_eq_true.mpr hrest
  simp only [b15Decode, hpad, hall, if_neg (Nat.not_lt.mpr hle)]
  rfl

/-- The four causes of `DecodeError`, negated together (42_codec R102; 60_exceptions R114). -/
theorem not_isUndecodable_iff {t : Text} :
    ¬ IsUndecodable t ↔ ∃ header rest pad, t = header :: rest ∧ hexVal header = some pad ∧
      (∀ c ∈ rest, isDataChar c = true) ∧ pad ≤ 15 * rest.length := by
  simp only [hexVal_eq_some_iff, isDataChar_iff]
  constructor
  · intro h
    obtain ⟨hne, hheader, hdata, hlong⟩ : t ≠ [] ∧ _ ∧ _ ∧ _ := by simpa only [IsUndecodable, not_or] using h
    obtain ⟨header, rest, rfl⟩ := List.exists_cons_of_ne_nil hne
    obtain ⟨pad, hpad⟩ := not_not.mp fun hno => hheader ⟨header, rest, rfl, hno⟩
    exact ⟨header, rest, pad, rfl, hpad, fun c hc => not_not.mp fun hno => hdata ⟨c, hc, hno⟩,
      Nat.le_of_not_lt fun hlt => hlong ⟨header, rest, pad, rfl, hpad, hlt⟩⟩
  · rintro ⟨header, rest, pad, rfl, hpad, hrest, hle⟩ hbad
    rcases hbad with hnil | ⟨_, _, hcons, hno⟩ | ⟨c, hc, hno⟩ | ⟨_, _, pad', hcons, hpad', hlt⟩
    · cases hnil
    · cases hcons
      exact hno ⟨pad, hpad⟩
    · exact hno (hrest c hc)
    · cases hcons
      have hsame : some pad = some pad' := (hexVal_eq_some_iff.mpr hpad).symm.trans (hexVal_eq_some_iff.mpr hpad')
      cases hsame
      exact absurd hle (Nat.not_le.mpr hlt)

theorem b15Decode_of_isUndecodable {t : Text} (h : IsUndecodable t) : b15Decode t = none := by
  cases hd : b15Decode t with
  | none => rfl
  | some bits =>
    obtain ⟨header, rest, pad, ht, hpad, hrest, hle, -⟩ := b15Decode_some hd
    exact absurd h (not_isUndecodable_iff.mpr ⟨header, rest, pad, ht, hpad, hrest, hle⟩)

theorem exec_b15Dec_of_some {text : Text} {bits : Bits} (h : b15Decode text = some bits) (s : State) :
    exec (.b15Dec text) s = .next (s.answered (0x00 :: bitsField bits)) := by
  rw [exec, execB15Dec, h, ← putBits_eq_bitsField]
  rfl

theorem exec_b15Dec_of_none {text : Text} (h : b15Decode text = none) (s : State) :
    exec (.b15Dec text) s = .next (s.answered [0x03]) := by
  rw [exec, execB15Dec, h]
  rfl

/-! ## The round trip -/

/-- `B15_DEC(B15_ENC(s)) = s` (42_codec R103): the header names the padding, and the groups join to the padded
string. -/
theorem b15Decode_b15Encode (s : Bits) : b15Decode (b15Encode s) = some s := by
  have hlen := codecGroups_length s
  rw [b15Encode_eq, b15Decode_cons (hexVal_headerChar (padLength_lt _)) (fun _ => isDataChar_of_mem_encode)
    (by rw [List.length_map]; omega), List.length_map, hlen, Nat.add_sub_cancel, groupBits_encode, List.take_left]

/-- The text of a bit string that fits its field fits a `text` field (30_encoding R56). -/
theorem b15Encode_length_le {s : Bits} (h : s.length < 2 ^ 32) : (b15Encode s).length ≤ maxTextLength := by
  rw [b15Encode_length, maxTextLength]
  omega

/-- Settles O40: the round trip of the two functions, and the text fits its packet. -/
theorem codecRoundTrip : Obligations.CodecRoundTrip := by
  intro bits s hbits
  exact ⟨_, b15Encode bits, exec_b15Enc bits s, rfl, decode_textField (b15Encode_length_le hbits),
    exec_b15Dec_of_some (b15Decode_b15Encode bits) _⟩

/-! ## The commands by their rules -/

/-- Settles O38: the encoder's text is the rule's. -/
theorem b15EncFollowsItsRule : Obligations.B15EncFollowsItsRule := by
  intro bits s
  rw [← b15Encode_eq_textByRule]
  exact exec_b15Enc bits s

/-- Settles O39: a text without the four causes decodes, and its bits are those of its data characters. -/
theorem b15DecFollowsItsRule : Obligations.B15DecFollowsItsRule := by
  intro text s
  refine ⟨fun hbad => exec_b15Dec_of_none (b15Decode_of_isUndecodable hbad) s, fun hgood => ?_⟩
  obtain ⟨header, rest, pad, rfl, hpad, hrest, hle⟩ := not_isUndecodable_iff.mp hgood
  have hlen : ((groupBits rest).take (15 * rest.length - pad)).length = 15 * rest.length - pad := by
    rw [List.length_take, groupBits_length]
    omega
  refine ⟨header, rest, pad, _, rfl, hexVal_eq_some_iff.mp hpad,
    exec_b15Dec_of_some (b15Decode_cons hpad hrest hle) s, by omega, fun i hi => ?_⟩
  rw [hlen] at hi
  rw [← groupBits_getD hrest (by omega), List.getD_eq_getElem?_getD, List.getElem?_take_of_lt hi,
    ← List.getD_eq_getElem?_getD]

/-- Settles O41: the header is a digit of the padding, and the data characters end below the surrogate band. -/
theorem textLengthAndSurrogateSafety : Obligations.TextLengthAndSurrogateSafety := by
  intro bits s _
  have hheader := hexVal_eq_some_iff.mp (hexVal_headerChar (padLength_lt bits.length))
  have hdata : ∀ c ∈ (codecGroups bits).map dataChar, 161 ≤ c.toNat ∧ c.toNat ≤ 32928 := fun _ hc =>
    isDataChar_iff.mp (isDataChar_of_mem_encode hc)
  refine ⟨_, headerChar (padLength bits.length), (codecGroups bits).map dataChar, exec_b15Enc bits s, rfl,
    b15Encode_length bits, ?_, hdata, ?_⟩
  · exact hheader.imp (fun ⟨hlow, hhigh, _⟩ => ⟨hlow, hhigh⟩) (fun ⟨hlow, hhigh, _⟩ => ⟨hlow, hhigh⟩)
  · intro c hc
    rcases List.mem_cons.mp hc with rfl | hrest
    · unfold IsHexVal at hheader
      omega
    · have := hdata c hrest
      omega

end Sys2Proof
end

section
/-! Family 60_exceptions: the status of a response (R110, R111, R123).

What a command answers is one of two things, `Completion`: OK with its fields, or one error status with nothing else
changed. The commands that cannot fail answer OK by their own rules. -/

namespace Sys2Proof

open Sys2Proof.Machine Sys2Proof.Spec

/-! ## The two ways a command ends -/

/-- How a command took the block from `s` to `t` (60_exceptions R111): it answered OK with result fields, whatever else
it changed; or it answered the one byte of an error status and changed nothing else. -/
inductive Completion (s t : State) : Prop where
  | ok (fields : Packet) (h : t.responses = s.responses ++ [0x00 :: fields])
  | error (status : Status) (hstatus : status ≠ .ok) (h : t = s.answered [status.code])

/-- Every command that answers a next state ends in one of the two ways. -/
theorem completion_of_exec {i : Instr} {s t : State} (h : exec i s = .next t) : Completion s t := by
  cases i with
  | hash seed key =>
    obtain rfl := respond_next h
    exact .ok _ rfl
  | sbfInit n p w =>
    rcases execSbfInit_next h with rfl | rfl | ⟨-, -, -, -, -, rfl⟩
    · exact .error .invalidParameter (by decide) rfl
    · exact .error .emptyInput (by decide) rfl
    · exact .ok _ rfl
  | sbfCfg m k w =>
    rcases execSbfCfg_next h with rfl | ⟨-, -, -, -, rfl⟩
    · exact .error .invalidParameter (by decide) rfl
    · exact .ok _ rfl
  | sbfInsert freq key =>
    rcases execSbfInsert_next h with ⟨-, rfl⟩ | ⟨-, u, hu, rfl⟩
    · exact .error .wrongPhase (by decide) rfl
    · obtain ⟨-, -, -, -, -, -, hresponses⟩ := State.insert_frame hu
      exact .ok [] (by rw [State.answered_responses, hresponses])
  | sbfSeal =>
    rcases execSbfSeal_next h with ⟨-, rfl⟩ | ⟨-, rfl⟩
    · exact .error .wrongPhase (by decide) rfl
    · exact .ok _ rfl
  | sbfQuery key =>
    rcases execSbfQuery_next h with ⟨-, rfl⟩ | ⟨-, _, -, rfl⟩
    · exact .error .wrongPhase (by decide) rfl
    · exact .ok _ rfl
  | sbfInfo =>
    rcases execSbfInfo_next h with ⟨-, rfl⟩ | ⟨-, rfl⟩
    · exact .error .wrongPhase (by decide) rfl
    · exact .ok _ rfl
  | sbfExport =>
    rcases execSbfExport_next h with ⟨-, rfl⟩ | ⟨-, _, -, rfl⟩
    · exact .error .wrongPhase (by decide) rfl
    · exact .ok _ rfl
  | b15Enc bits =>
    obtain rfl := respond_next h
    exact .ok _ rfl
  | b15Dec text =>
    rcases execB15Dec_next h with ⟨-, rfl⟩ | ⟨_, -, rfl⟩
    · exact .error .decodeError (by decide) rfl
    · exact .ok _ rfl

/-- Settles O44: a response whose status is not OK is that of the second way to end. -/
theorem errorsLeaveTheStateUnchanged : Obligations.ErrorsLeaveTheStateUnchanged := by
  intro i s t status fields h hresponses hstatus
  cases completion_of_exec h with
  | ok okFields hok =>
    have hlast : [0x00 :: okFields] = [status :: fields] := List.append_cancel_left (hok.symm.trans hresponses)
    cases hlast
    exact absurd rfl hstatus
  | error raised _ ht =>
    subst ht
    have hlast : [[raised.code]] = [status :: fields] := List.append_cancel_left hresponses
    cases hlast
    exact ⟨rfl, rfl⟩

/-! ## The commands that cannot fail -/

/-- Settles O30: each command's rule, in the phase where it has no error left. -/
theorem commandsThatCannotFail : Obligations.CommandsThatCannotFail := by
  intro s hinv
  refine ⟨fun seed key bits i hi => ?_, fun hp freq key i hi => ?_, fun hp key i hi => ?_⟩
  · simp only [List.mem_cons, List.not_mem_nil, or_false] at hi
    rcases hi with rfl | rfl
    · exact ⟨_, _, hashCommandFollowsThePseudocode seed key s, rfl⟩
    · exact ⟨_, _, b15EncFollowsItsRule bits s, rfl⟩
  · simp only [List.mem_cons, List.not_mem_nil, or_false] at hi
    rcases hi with rfl | rfl
    · obtain ⟨t, -, hexec, -, -, -, -, -, -, -, -, -, hresponses⟩ := (sbfInsertFollowsItsRule freq key s).2 hinv hp
      exact ⟨t, [], hexec, hresponses⟩
    · exact ⟨_, _, (sbfSealFollowsItsRule s).1 hp, rfl⟩
  · simp only [List.mem_cons, List.not_mem_nil, or_false] at hi
    rcases hi with rfl | rfl | rfl
    · obtain ⟨_, -, -, hexec⟩ := (sbfQueryFollowsItsRule key s).2 hinv hp
      exact ⟨_, _, hexec, rfl⟩
    · exact ⟨_, _, (sbfInfoFollowsItsRule s).2 hp, rfl⟩
    · obtain ⟨_, hexec, -⟩ := (sbfExportFollowsItsRule s).2 hinv hp
      exact ⟨_, _, hexec, rfl⟩

end Sys2Proof
end

section
/-! Family other, part 1: packets and their commands (30_encoding R41 to R56).

Each operand reader reads back what `operandBytes` wrote, and what it reads is what `operandBytes` writes, except for
the spare bits of a `bits` operand (R44). -/

namespace Sys2Proof

open Sys2Proof.Machine Sys2Proof.Spec

theorem readOperands_operandBytes {i : Instr} (h : i.wf = true) :
    readOperands i.opcode i.operandBytes = .ok (i, []) := by
  cases i with
  | hash word key | sbfInsert word key =>
    rw [Instr.opcode, Instr.operandBytes, readOperands, thenTake_of (takeU32_put word _),
      ← List.append_nil (putKey key)]
    exact mapField_of (takeKey_put key [] (of_decide_eq_true h))
  | sbfInit n p w =>
    rw [Instr.opcode, Instr.operandBytes, readOperands, List.append_assoc, thenTake_of (takeU32_put n _),
      thenTake_of (takeF64_put p _)]
    rfl
  | sbfCfg m k w =>
    rw [Instr.opcode, Instr.operandBytes, readOperands, List.append_assoc, thenTake_of (takeU32_put m _),
      thenTake_of (takeU32_put k _)]
    rfl
  | sbfSeal | sbfInfo | sbfExport => rfl
  | sbfQuery key =>
    rw [Instr.opcode, Instr.operandBytes, readOperands, ← List.append_nil (putKey key)]
    exact mapField_of (takeKey_put key [] (of_decide_eq_true h))
  | b15Enc bits =>
    rw [Instr.opcode, Instr.operandBytes, readOperands, ← List.append_nil (putBits bits)]
    exact mapField_of (takeBits_put bits [] (of_decide_eq_true h))
  | b15Dec text =>
    rw [Instr.opcode, Instr.operandBytes, readOperands, ← List.append_nil (putText text)]
    exact mapField_of (takeText_put text [] (of_decide_eq_true h))

/-- Settles O7: byte 0 selects the format's reader, which reads back every operand. -/
theorem decodeUndoesEncode : Obligations.DecodeUndoesEncode :=
  fun _ hwf => decode_of (readOperands_operandBytes hwf)

/-- What an operand reader read to the end are the operand bytes of its command; only for a `bits` operand is no more
known than their number (30_encoding R44). -/
theorem readOperands_ok {op : Opcode} {bs : Packet} {i : Instr} (h : readOperands op bs = .ok (i, [])) :
    i.opcode = op ∧
      (bs = i.operandBytes ∨ ((∃ bits, i = .b15Enc bits) ∧ bs.length = i.operandBytes.length)) := by
  cases op with
  | hash | sbfInsert =>
    obtain ⟨word, mid, hword, hrest⟩ := thenTake_ok h
    obtain ⟨key, hkey, rfl⟩ := mapField_ok hrest
    refine ⟨rfl, .inl ?_⟩
    rw [takeU32_ok hword, (takeKey_ok hkey).1, List.append_nil]
    rfl
  | sbfInit =>
    obtain ⟨n, mid, hn, hrest⟩ := thenTake_ok h
    obtain ⟨p, mid', hp, hrest'⟩ := thenTake_ok hrest
    obtain ⟨w, hw, rfl⟩ := mapField_ok hrest'
    refine ⟨rfl, .inl ?_⟩
    rw [takeU32_ok hn, takeF64_ok hp, takeU8_ok hw, ← List.append_assoc]
    rfl
  | sbfCfg =>
    obtain ⟨m, mid, hm, hrest⟩ := thenTake_ok h
    obtain ⟨k, mid', hk, hrest'⟩ := thenTake_ok hrest
    obtain ⟨w, hw, rfl⟩ := mapField_ok hrest'
    refine ⟨rfl, .inl ?_⟩
    rw [takeU32_ok hm, takeU32_ok hk, takeU8_ok hw, ← List.append_assoc]
    rfl
  | sbfSeal | sbfInfo | sbfExport =>
    cases h
    exact ⟨rfl, .inl rfl⟩
  | sbfQuery =>
    obtain ⟨key, hkey, rfl⟩ := mapField_ok h
    exact ⟨rfl, .inl (by rw [(takeKey_ok hkey).1, List.append_nil]; rfl)⟩
  | b15Enc =>
    obtain ⟨bits, hbits, rfl⟩ := mapField_ok h
    obtain ⟨-, payload, hlen, hbs, -⟩ := takeBits_ok hbits
    exact ⟨rfl, .inr ⟨⟨bits, rfl⟩, by simp [hbs, hlen, Instr.operandBytes, putBits]⟩⟩
  | b15Dec =>
    obtain ⟨text, htext, rfl⟩ := mapField_ok h
    exact ⟨rfl, .inl (by rw [(takeText_ok htext).1, List.append_nil]; rfl)⟩

/-- Only well-formed commands are read from packets (30_encoding R56). -/
theorem wf_of_decode {p : Packet} {i : Instr} (h : decode p = .ok i) : i.wf = true := by
  obtain ⟨op, -, hformat, rfl⟩ := decode_eq_ok_iff.mp h
  exact commandAt_wf hformat

/-- Settles O8: the opcode and the operand bytes of the command are those of the packet. -/
theorem encodeUndoesDecode : Obligations.EncodeUndoesDecode := by
  intro p i h
  obtain ⟨op, bs, rfl, hread⟩ := decode_ok h
  obtain ⟨rfl, hbs⟩ := readOperands_ok hread
  have hwf := wf_of_decode h
  rcases hbs with rfl | ⟨⟨bits, rfl⟩, hlen⟩
  · exact ⟨rfl, decodeUndoesEncode i hwf, fun _ => rfl⟩
  · exact ⟨congrArg (· + 1) hlen.symm, decodeUndoesEncode _ hwf, fun hno => absurd rfl (hno bits)⟩

/-- Settles O6: ten closed runs of the decoder, one for each command. -/
theorem writtenOutPacketsDecode : Obligations.WrittenOutPacketsDecode := by
  unfold Obligations.WrittenOutPacketsDecode
  decide

end Sys2Proof
end

section
/-! Family other, part 2: the rules of the whole machine (10_state R14, R22, R23; 20_memory R34; 70_reset R125).

Every rule about a command is a case analysis on `exec_next`, and every rule about a step one on `step_next`: a step
waits, runs a packet, or resets. -/

namespace Sys2Proof

open Sys2Proof.Machine Sys2Proof.Spec

/-! ## The step and the port -/

theorem step_of_command {s : State} {p : Packet} {later : List HostEvent} (h : s.inbox = .command p :: later) :
    step s = runPacket p { s with inbox := later } := by
  rw [step, h]
  rfl

theorem step_of_reset {s : State} {inProgress : Option Packet} {later : List HostEvent}
    (h : s.inbox = .reset inProgress :: later) : step s = .next (State.resetBlock { s with inbox := later }) := by
  rw [step, h]
  rfl

theorem step_of_nil {s : State} (h : s.inbox = []) : step s = .next s := by
  rw [step, h]

theorem runPacket_of_ok {p : Packet} {i : Instr} (h : decode p = .ok i) (s : State) : runPacket p s = exec i s := by
  rw [runPacket, h]

/-- Everything a packet that is answered did: it was no command, or it ran its command. -/
theorem runPacket_next {p : Packet} {s t : State} (h : runPacket p s = .next t) :
    t = s.answered [0x05] ∨ ∃ i, decode p = .ok i ∧ exec i s = .next t := by
  cases hd : decode p with
  | error r =>
    rw [runPacket, hd] at h
    exact .inl (raise_next h)
  | ok i => exact .inr ⟨i, rfl, runPacket_of_ok hd s ▸ h⟩

/-- Everything a step that answers a next state did: it waited, or it took a packet, or it took a reset. -/
theorem step_next {s t : State} (h : step s = .next t) :
    t = s ∨ (∃ p later, runPacket p { s with inbox := later } = .next t) ∨
      ∃ later, t = State.resetBlock { s with inbox := later } := by
  cases hinbox : s.inbox with
  | nil =>
    rw [step_of_nil hinbox] at h
    cases h
    exact .inl rfl
  | cons event later =>
    cases event with
    | command p => exact .inr (.inl ⟨p, later, step_of_command hinbox ▸ h⟩)
    | reset inProgress =>
      rw [step_of_reset hinbox] at h
      cases h
      exact .inr (.inr ⟨later, rfl⟩)

/-- Settles O1: the step takes the reset, and `State.resetBlock` says what it leaves. -/
theorem resetEventEmptiesTheBlock : Obligations.ResetEventEmptiesTheBlock := by
  intro s inProgress later hinbox
  exact ⟨_, step_of_reset hinbox, rfl, rfl, rfl, rfl, fun _ => rfl, rfl, rfl, rfl⟩

/-- Settles O2: no slot is written in `State.reset`, so each reads as its free value. -/
theorem resetStateIsIdle : Obligations.ResetStateIsIdle :=
  ⟨rfl, rfl, rfl, rfl, fun _ => State.slot_of_unwritten rfl⟩

theorem decode_of_decodeTableWord {nbits w : Nat} {i : Instr} (h : decodeTableWord nbits w = some i) :
    decode (packetOfWord nbits w) = .ok i := by
  unfold decodeTableWord at h
  split at h
  · next j hj =>
    cases h
    exact hj
  · cases h

/-- Settles O3: the packet at the head of the inbox, whether the host issued it or it was placed as a word. -/
theorem stepRunsTheDecodedCommand : Obligations.StepRunsTheDecodedCommand := by
  refine ⟨fun s p later i hinbox hp => ?_, fun s nbits w i hw => ?_, fun s => step_of_nil⟩
  · rw [step_of_command hinbox, runPacket_of_ok hp]
  · rw [State.withFetchWord, step_of_command (State.present_inbox s _),
      runPacket_of_ok (decode_of_decodeTableWord hw)]
    rfl

/-! ## What every command keeps -/

/-- No command takes an event of the host. -/
theorem exec_inbox {i : Instr} {s t : State} (h : exec i s = .next t) : t.inbox = s.inbox := by
  rcases exec_next h with ⟨r, rfl⟩ | ⟨w, k, m, r, -, rfl⟩ | ⟨freq, key, u, -, -, hu, rfl⟩ | ⟨-, -, rfl⟩
  · rfl
  · rfl
  · obtain ⟨-, -, -, -, -, hinbox, -⟩ := State.insert_frame hu
    exact hinbox
  · rfl

/-- Settles O49: configuring enters `BUILD`, sealing enters `SEALED`, and no other command touches the phase. -/
theorem phaseTransitions : Obligations.PhaseTransitions := by
  intro i s t h
  rcases exec_next h with ⟨r, rfl⟩ | ⟨w, k, m, r, hi, rfl⟩ | ⟨freq, key, u, -, -, hu, rfl⟩ | ⟨hi, hp, rfl⟩
  · exact .inl rfl
  · exact .inr (.inl ⟨rfl, hi⟩)
  · obtain ⟨hphase, -⟩ := State.insert_frame hu
    exact .inl hphase
  · exact .inr (.inr ⟨rfl, hp, hi⟩)

/-- Settles O50: insertion and sealing need `BUILD`, so only configuring is left. -/
theorem sealedFilterIsImmutable : Obligations.SealedFilterIsImmutable := by
  intro i s t hsealed h
  rcases exec_next h with ⟨r, rfl⟩ | ⟨w, k, m, r, hi, rfl⟩ | ⟨freq, key, u, -, hp, -, -⟩ | ⟨-, hp, -⟩
  · exact .inl (s.answered_sameBlock r)
  · exact .inr ⟨hi, r, rfl⟩
  · cases hsealed.symm.trans hp
  · cases hsealed.symm.trans hp

/-- What a command other than `SBF_INIT` and `SBF_CFG` did: it changed nothing but the port and the phase, or it
inserted. -/
theorem exec_next_of_not_configures {i : Instr} {s t : State} (hinit : ∀ n p w, i ≠ .sbfInit n p w)
    (hcfg : ∀ m k w, i ≠ .sbfCfg m k w) (h : exec i s = .next t) :
    (t.w = s.w ∧ t.k = s.k ∧ t.m = s.m ∧ ∀ j, t.slot j = s.slot j) ∨
      ∃ freq key u, s.insert freq key = .ok u ∧ t = u.answered [0x00] := by
  rcases exec_next h with ⟨r, rfl⟩ | ⟨_, _, _, _, ⟨n, p, w, hi⟩ | ⟨m, k, w, hi⟩, -⟩ | ⟨freq, key, u, -, -, hu, ht⟩ |
    ⟨-, -, rfl⟩
  · exact .inl ⟨rfl, rfl, rfl, fun _ => rfl⟩
  · exact absurd hi (hinit n p w)
  · exact absurd hi (hcfg m k w)
  · exact .inr ⟨freq, key, u, hu, ht⟩
  · exact .inl ⟨rfl, rfl, rfl, fun _ => rfl⟩

/-- Settles O51: of the commands left only an insertion writes slots, and it lowers none. -/
theorem slotsNeverDecrease : Obligations.SlotsNeverDecrease := by
  intro i s t h hinit hcfg j
  rcases exec_next_of_not_configures hinit hcfg h with ⟨-, -, -, hslots⟩ | ⟨freq, key, u, hu, rfl⟩
  · rw [hslots]
  · exact State.slot_le_insert hu j

/-- Settles O52: none of the six configures, inserts or seals. -/
theorem readsHaveNoSideEffects : Obligations.ReadsHaveNoSideEffects := by
  intro i s t h hi
  refine ⟨?_, exec_inbox h⟩
  rcases exec_next h with ⟨r, rfl⟩ | ⟨_, _, _, _, ⟨_, _, _, rfl⟩ | ⟨_, _, _, rfl⟩, -⟩ | ⟨_, _, _, rfl, -⟩ | ⟨rfl, -⟩
  · exact s.answered_sameBlock r
  · simp at hi
  · simp at hi
  · simp at hi
  · simp at hi

/-- Settles O55: the response of each of the three is written from the operands. -/
theorem pureCommandsReadNoState : Obligations.PureCommandsReadNoState := by
  intro i hi
  rcases hi with ⟨seed, key, rfl⟩ | ⟨bits, rfl⟩ | ⟨text, rfl⟩
  · exact ⟨_, hashCommandFollowsThePseudocode seed key⟩
  · exact ⟨_, b15EncFollowsItsRule bits⟩
  · cases hd : b15Decode text with
    | none => exact ⟨_, exec_b15Dec_of_none hd⟩
    | some bits => exact ⟨_, exec_b15Dec_of_some hd⟩

/-- Configuring again with the same sizes leaves the block as the first time left it. -/
theorem configure_sameBlock (s : State) (w : BitVec 5) (k m : Word) (r r' : Packet) :
    ((s.configure w k m).answered r).SameBlock ((((s.configure w k m).answered r).configure w k m).answered r') :=
  ⟨rfl, rfl, rfl, rfl, SlotMem.clear_clear _ _, rfl⟩

/-- Settles O20: whether the command fails depends on its operands alone; if it does it changes nothing twice, and if
not it configures twice. -/
theorem configuringTwiceIsConfiguringOnce : Obligations.ConfiguringTwiceIsConfiguringOnce := by
  intro i s t hi h
  rcases hi with ⟨n, p, w, rfl⟩ | ⟨m, k, w, rfl⟩
  · rcases execSbfInit_cases n p w with ⟨r, hr⟩ | ⟨hw, hp, hn, hm, hmax⟩
    · exact ⟨_, hr t, t.answered_sameBlock r⟩
    · cases (execSbfInit_legal s hw hp hn hm hmax).symm.trans h
      exact ⟨_, execSbfInit_legal _ hw hp hn hm hmax, configure_sameBlock s _ _ _ _ _⟩
  · rcases execSbfCfg_cases m k w with ⟨r, hr⟩ | ⟨hw, hm, hmax, hk⟩
    · exact ⟨_, hr t, t.answered_sameBlock r⟩
    · cases (execSbfCfg_legal s hw hm hmax hk).symm.trans h
      exact ⟨_, execSbfCfg_legal _ hw hm hmax hk, configure_sameBlock s _ _ _ _ _⟩

/-! ## The invariant -/

/-- Settles O47: no slot is written, and in IDLE the invariant asks of the registers only that they are 0. -/
theorem resetMeetsTheInvariant : Obligations.ResetMeetsTheInvariant where
  slots_canonical := rfl
  slots_exist _ hc := nomatch hc
  idle_zero _ := ⟨rfl, rfl, rfl⟩
  width_legal hp := absurd rfl hp
  count_legal hp := absurd rfl hp
  size_legal hp := absurd rfl hp
  slots_legal hp := absurd rfl hp
  slots_written hp := absurd rfl hp

theorem width_pos_of_widthOk {w : Byte} (h : widthOk w = true) : 1 ≤ (w.setWidth 5).toNat := by
  obtain ⟨h1, h31⟩ := (widthOk_iff w).mp h
  rwa [setWidth_toNat_of_legal h31]

/-- The sizes of `SBF_INIT` that pass its checks are those of the words it writes (41_filter R75). -/
theorem sizing_words {n : Word} {p : F64} (hn : n ≠ 0) (hm : sizingM n p ≠ 0) (hmax : sizingM n p ≤ Config.mMax) :
    (BitVec.ofNat 32 (sizingM n p)).toNat = sizingM n p ∧ (BitVec.ofNat 32 (sizingK n p)).toNat = sizingK n p := by
  have hcap := Config.mMax_le
  have hk := (sizingK_bounds hn (Nat.one_le_iff_ne_zero.mpr hm) hmax).2
  rw [BitVec.toNat_ofNat, BitVec.toNat_ofNat]
  omega

theorem Machine.State.Inv.sbfInit {s t : State} (hinv : s.Inv) {n : Word} {p : F64} {w : Byte}
    (h : execSbfInit n p w s = .next t) : t.Inv := by
  rcases execSbfInit_next h with rfl | rfl | ⟨hw, -, hn, hm, hmax, rfl⟩
  · exact hinv.answered _
  · exact hinv.answered _
  · obtain ⟨hmWord, hkWord⟩ := sizing_words hn hm hmax
    have hm1 := Nat.one_le_iff_ne_zero.mpr hm
    have hk1 := (sizingK_bounds hn hm1 hmax).1
    exact (hinv.configure (width_pos_of_widthOk hw) (hk1.trans_eq hkWord.symm) (hm1.trans_eq hmWord.symm)
      (hmWord.trans_le hmax)).answered _

theorem Machine.State.Inv.sbfCfg {s t : State} (hinv : s.Inv) {m k : Word} {w : Byte}
    (h : execSbfCfg m k w s = .next t) : t.Inv := by
  rcases execSbfCfg_next h with rfl | ⟨hw, hm, hmax, hk, rfl⟩
  · exact hinv.answered _
  · exact (hinv.configure (width_pos_of_widthOk hw) (toNat_pos_of_ne_zero hk) (toNat_pos_of_ne_zero hm)
      hmax).answered _

/-- Every command keeps the invariant (10_state R22 (a) to (c)). -/
theorem Machine.State.Inv.exec {i : Instr} {s t : State} (hinv : s.Inv) (h : exec i s = .next t) : t.Inv := by
  rcases exec_next h with ⟨r, rfl⟩ | ⟨_, _, _, _, ⟨n, p, w, rfl⟩ | ⟨m, k, w, rfl⟩, -⟩ | ⟨_, _, u, -, hp, hu, rfl⟩ |
    ⟨-, hp, rfl⟩
  · exact hinv.answered r
  · exact hinv.sbfInit h
  · exact hinv.sbfCfg h
  · exact (hinv.insert (hp.trans_ne (by decide)) hu).answered _
  · exact (hinv.with_sealed (hp.trans_ne (by decide))).answered _

/-- Settles O46: waiting changes nothing, a command keeps the invariant, and a reset establishes it. -/
theorem everyStepKeepsTheInvariant : Obligations.EveryStepKeepsTheInvariant := by
  intro s t hinv h
  rcases step_next h with rfl | ⟨p, later, hrun⟩ | ⟨later, rfl⟩
  · exact hinv
  · rcases runPacket_next hrun with rfl | ⟨i, -, hexec⟩
    · exact (hinv.with_inbox later).answered _
    · exact (hinv.with_inbox later).exec hexec
  · exact State.resetBlock_inv _

/-! ## Every command is answered -/

theorem whenPhase_answers {required : Phase} {s : State} {body : Host.Outcome State Fault Refusal}
    (hbody : s.phase = required → ∃ t, body = .next t) : ∃ t, whenPhase required s body = .next t := by
  by_cases hp : s.phase = required
  · rw [whenPhase_of_eq hp]
    exact hbody hp
  · exact ⟨_, whenPhase_of_ne hp body⟩

/-- Under the invariant no command faults or is refused. -/
theorem Machine.State.Inv.exec_answers {s : State} (hinv : s.Inv) (i : Instr) : ∃ t, Machine.exec i s = .next t := by
  cases i with
  | hash seed key => exact ⟨_, execHash_eq seed key s⟩
  | sbfInit n p w =>
    rcases execSbfInit_cases n p w with ⟨r, hr⟩ | ⟨hw, hp, hn, hm, hmax⟩
    · exact ⟨_, hr s⟩
    · exact ⟨_, execSbfInit_legal s hw hp hn hm hmax⟩
  | sbfCfg m k w =>
    rcases execSbfCfg_cases m k w with ⟨r, hr⟩ | ⟨hw, hm, hmax, hk⟩
    · exact ⟨_, hr s⟩
    · exact ⟨_, execSbfCfg_legal s hw hm hmax hk⟩
  | sbfInsert freq key =>
    refine whenPhase_answers fun hp => ?_
    obtain ⟨u, hu⟩ := hinv.insert_answers (hp.trans_ne (by decide)) freq key
    exact ⟨_, by rw [hu]; rfl⟩
  | sbfSeal => exact whenPhase_answers fun _ => ⟨_, rfl⟩
  | sbfQuery key =>
    refine whenPhase_answers fun hp => ?_
    obtain ⟨mn, hmn, -⟩ := hinv.minCandidate (hp.trans_ne (by decide)) key
    exact ⟨_, by rw [hmn]; rfl⟩
  | sbfInfo => exact whenPhase_answers fun _ => ⟨_, rfl⟩
  | sbfExport => exact whenPhase_answers fun _ => ⟨_, by rw [s.exportBits_eq]; rfl⟩
  | b15Enc bits => exact ⟨_, execB15Enc_eq bits s⟩
  | b15Dec text =>
    cases hd : b15Decode text with
    | none => exact ⟨_, exec_b15Dec_of_none hd s⟩
    | some bits => exact ⟨_, exec_b15Dec_of_some hd s⟩

theorem Machine.State.Inv.runPacket_answers {s : State} (hinv : s.Inv) (p : Packet) :
    ∃ t, runPacket p s = .next t := by
  cases hd : decode p with
  | error r => exact ⟨_, by rw [runPacket, hd]; rfl⟩
  | ok i =>
    obtain ⟨t, ht⟩ := hinv.exec_answers i
    exact ⟨t, (runPacket_of_ok hd s).trans ht⟩

theorem Machine.State.Inv.step_answers {s : State} (hinv : s.Inv) : ∃ t, step s = .next t := by
  cases hinbox : s.inbox with
  | nil => exact ⟨s, step_of_nil hinbox⟩
  | cons event later =>
    cases event with
    | command p =>
      rw [step_of_command hinbox]
      exact (hinv.with_inbox later).runPacket_answers p
    | reset inProgress => exact ⟨_, step_of_reset hinbox⟩

/-- Settles O48, by induction on the number of steps: each answers a next state that meets the invariant again. -/
theorem noRunIsStuck : Obligations.NoRunIsStuck := by
  intro s hinv n
  induction n generalizing s with
  | zero => exact ⟨s, rfl⟩
  | succ n ih =>
    obtain ⟨t, ht⟩ := hinv.step_answers
    rw [core_run_next core ht n]
    exact ih t (everyStepKeepsTheInvariant s t hinv ht)

/-- The one response of a command that answers a next state: OK with its fields, or an error byte (60_exceptions
R110). -/
theorem Completion.response {s t : State} (h : Completion s t) :
    ∃ r, t.responses = s.responses ++ [r] ∧
      ((∃ fields, r = 0x00 :: fields) ∨ r ∈ [[0x01], [0x02], [0x03], [0x04], ([0x05] : Packet)]) := by
  cases h with
  | ok fields hok => exact ⟨_, hok, .inl ⟨fields, rfl⟩⟩
  | error status hstatus ht =>
    subst ht
    refine ⟨[status.code], rfl, .inr ?_⟩
    cases status with
    | ok => exact absurd rfl hstatus
    | invalidParameter | emptyInput | decodeError | wrongPhase | illegalCommand => decide

/-- Settles O45: the packet is answered under the invariant, and its completion is one of the two kinds. -/
theorem everyPacketGetsOneResponse : Obligations.EveryPacketGetsOneResponse := by
  intro s p later hinv hinbox
  obtain ⟨t, ht⟩ := (hinv.with_inbox later).runPacket_answers p
  obtain ⟨hcompletion, hlater⟩ : Completion { s with inbox := later } t ∧ t.inbox = later := by
    rcases runPacket_next ht with rfl | ⟨i, -, hexec⟩
    · exact ⟨.error .illegalCommand (by decide) rfl, rfl⟩
    · exact ⟨completion_of_exec hexec, exec_inbox hexec⟩
  obtain ⟨r, hresponses, hr⟩ := hcompletion.response
  exact ⟨t, r, (step_of_command hinbox).trans ht, hlater, hresponses, hr⟩

end Sys2Proof
end

section
/-! Family other, part 3: what a host cannot see (10_state R18, R23).

Two states that agree on the registers and on the slots below `M` read the same slots, so every command ends in them in
the same way, `AlikeCompletion`. The statements differ only in what they ask of the two states after it. -/

namespace Sys2Proof

open Sys2Proof.Machine Sys2Proof.Spec

/-! ## Reading slots -/

section SameVisible

variable {s s' : State} (h : SameVisible s s')
include h

theorem Spec.SameVisible.readSlot (j : Nat) : s'.readSlot j = s.readSlot j := by
  rw [State.readSlot, State.readSlot, h.m]
  by_cases hj : j < s.m.toNat
  · rw [if_pos hj, if_pos hj, h.slots j hj]
  · rw [if_neg hj, if_neg hj]

theorem Spec.SameVisible.readSlots (js : List Nat) : s'.readSlots js = s.readSlots js := by
  induction js with
  | nil => rfl
  | cons j js ih => rw [State.readSlots, State.readSlots, h.readSlot, ih]

theorem Spec.SameVisible.candidates (key : Key) : s'.candidates key = s.candidates key :=
  State.candidates_congr key h.k h.m

theorem Spec.SameVisible.minCandidate (key : Key) : s'.minCandidate key = s.minCandidate key := by
  rw [State.minCandidate, State.minCandidate, h.candidates, h.readSlots]

theorem Spec.SameVisible.exportBits : s'.exportBits = s.exportBits := by
  rw [State.exportBits, State.exportBits, h.m, h.w, h.readSlots]

theorem Spec.SameVisible.cap : s'.cap = s.cap := by
  rw [State.cap, State.cap, h.w]

/-! ## Updates -/

theorem Spec.SameVisible.answered (r : Packet) : SameVisible (s.answered r) (s'.answered r) :=
  ⟨h.phase, h.w, h.k, h.m, h.slots⟩

theorem Spec.SameVisible.with_sealed : SameVisible { s with phase := .sealed } { s' with phase := .sealed } :=
  ⟨rfl, h.w, h.k, h.m, h.slots⟩

/-- Insertions that both answer leave the same slots below `M`. -/
theorem Spec.SameVisible.insert {u u' : State} {freq : Word} {key : Key} (hu : s.insert freq key = .ok u)
    (hu' : s'.insert freq key = .ok u') : SameVisible u u' := by
  obtain ⟨mn, hmn, -, hraised, hkept, -⟩ := State.insert_slots hu
  obtain ⟨mn', hmn', -, hraised', hkept', -⟩ := State.insert_slots hu'
  obtain ⟨hphase, hw, hk, hm, -⟩ := State.insert_frame hu
  obtain ⟨hphase', hw', hk', hm', -⟩ := State.insert_frame hu'
  rw [h.minCandidate, hmn] at hmn'
  cases hmn'
  rw [h.candidates] at hraised' hkept'
  refine ⟨?_, ?_, ?_, ?_, fun j hj => ?_⟩
  · rw [hphase', hphase, h.phase]
  · rw [hw', hw, h.w]
  · rw [hk', hk, h.k]
  · rw [hm', hm, h.m]
  · have hsame : s'.slot j = s.slot j := h.slots j (hm ▸ hj)
    by_cases hc : j ∈ s.candidates key
    · apply BitVec.eq_of_toNat_eq
      rw [hraised' j hc, hraised j hc, hsame, h.cap]
    · rw [hkept' j hc, hkept j hc, hsame]

end SameVisible

theorem sameVisible_configure (s s' : State) (w : BitVec 5) (k m : Word) :
    SameVisible (s.configure w k m) (s'.configure w k m) := by
  refine ⟨rfl, rfl, rfl, rfl, fun j hj => ?_⟩
  rw [State.configure_m] at hj
  rw [State.configure_slot, State.configure_slot, if_pos hj, if_pos hj]

/-! ## The ends of a command in two states -/

/-- How a command that took `s` to `t` ends in `s'`: by the same answer after the same update. For an insertion it is
said only what it did in `s`. -/
inductive AlikeCompletion (i : Instr) (s s' t : State) : Prop where
  | answered (r : Packet) (ht : t = s.answered r) (h : exec i s' = .next (s'.answered r))
  | configured (w : BitVec 5) (k m : Word) (r : Packet) (ht : t = (s.configure w k m).answered r)
      (h : exec i s' = .next ((s'.configure w k m).answered r))
  | inserted (freq : Word) (key : Key) (u : State) (hi : i = .sbfInsert freq key) (hp : s.phase = .build)
      (hu : s.insert freq key = .ok u) (ht : t = u.answered [0x00])
  | sealed (ht : t = State.answered { s with phase := .sealed } [0x00])
      (h : exec i s' = .next (State.answered { s' with phase := .sealed } [0x00]))

theorem Spec.SameVisible.alikeCompletion {i : Instr} {s s' t : State} (hv : SameVisible s s')
    (h : exec i s = .next t) : AlikeCompletion i s s' t := by
  have wrongPhase : ∀ {required : Phase} (body : Host.Outcome State Fault Refusal), s.phase ≠ required →
      whenPhase required s' body = .next (s'.answered [0x04]) := fun body hp =>
    whenPhase_of_ne (hv.phase.trans_ne hp) body
  cases i with
  | hash seed key =>
    cases h
    exact .answered _ rfl rfl
  | sbfInit n p w =>
    rcases execSbfInit_cases n p w with ⟨r, hr⟩ | ⟨hw, hp, hn, hm, hmax⟩
    · cases (hr s).symm.trans h
      exact .answered r rfl (hr s')
    · cases (execSbfInit_legal s hw hp hn hm hmax).symm.trans h
      exact .configured _ _ _ _ rfl (execSbfInit_legal s' hw hp hn hm hmax)
  | sbfCfg m k w =>
    rcases execSbfCfg_cases m k w with ⟨r, hr⟩ | ⟨hw, hm, hmax, hk⟩
    · cases (hr s).symm.trans h
      exact .answered r rfl (hr s')
    · cases (execSbfCfg_legal s hw hm hmax hk).symm.trans h
      exact .configured _ _ _ _ rfl (execSbfCfg_legal s' hw hm hmax hk)
  | sbfInsert freq key =>
    rcases execSbfInsert_next h with ⟨hp, rfl⟩ | ⟨hp, u, hu, rfl⟩
    · exact .answered _ rfl (wrongPhase _ hp)
    · exact .inserted freq key u rfl hp hu rfl
  | sbfSeal =>
    rcases execSbfSeal_next h with ⟨hp, rfl⟩ | ⟨hp, rfl⟩
    · exact .answered _ rfl (wrongPhase _ hp)
    · exact .sealed rfl (execSbfSeal_build (hv.phase.trans hp))
  | sbfQuery key =>
    rcases execSbfQuery_next h with ⟨hp, rfl⟩ | ⟨hp, mn, hmn, rfl⟩
    · exact .answered _ rfl (wrongPhase _ hp)
    · exact .answered _ rfl (execSbfQuery_sealed (hv.phase.trans hp) ((hv.minCandidate key).trans hmn))
  | sbfInfo =>
    rcases execSbfInfo_next h with ⟨hp, rfl⟩ | ⟨hp, rfl⟩
    · exact .answered _ rfl (wrongPhase _ hp)
    · have hinfo := execSbfInfo_sealed (hv.phase.trans hp)
      rw [hv.k, hv.w, hv.m] at hinfo
      exact .answered _ rfl hinfo
  | sbfExport =>
    rcases execSbfExport_next h with ⟨hp, rfl⟩ | ⟨hp, bits, hbits, rfl⟩
    · exact .answered _ rfl (wrongPhase _ hp)
    · exact .answered _ rfl (execSbfExport_sealed (hv.phase.trans hp) (hv.exportBits.trans hbits))
  | b15Enc bits =>
    cases h
    exact .answered _ rfl rfl
  | b15Dec text =>
    rcases execB15Dec_next h with ⟨hd, rfl⟩ | ⟨bits, hd, rfl⟩
    · exact .answered _ rfl (exec_b15Dec_of_none hd s')
    · exact .answered _ rfl (by rw [putBits_eq_bitsField]; exact exec_b15Dec_of_some hd s')

/-- Settles O53: the two states end alike; an insertion answers in the second too, since that meets the invariant. -/
theorem otherSlotsAreUnobservable : Obligations.OtherSlotsAreUnobservable := by
  intro i s s' t _ hinv' hv h
  cases hv.alikeCompletion h with
  | answered r ht h' => exact ⟨_, r, h', ht ▸ hv.answered r, ht ▸ rfl, rfl⟩
  | configured w k m r ht h' =>
    exact ⟨_, r, h', ht ▸ (sameVisible_configure s s' w k m).answered r, ht ▸ rfl, rfl⟩
  | inserted freq key u hi hp hu ht =>
    subst hi ht
    have hp' : s'.phase = .build := hv.phase.trans hp
    obtain ⟨u', hu'⟩ := hinv'.insert_answers (hp'.trans_ne (by decide)) freq key
    obtain ⟨-, -, -, -, -, -, hresponses⟩ := State.insert_frame hu
    obtain ⟨-, -, -, -, -, -, hresponses'⟩ := State.insert_frame hu'
    refine ⟨_, [0x00], execSbfInsert_build hp' hu', (hv.insert hu hu').answered _, ?_, ?_⟩
    · rw [State.answered_responses, hresponses]
    · rw [State.answered_responses, hresponses']
  | sealed ht h' => exact ⟨_, [0x00], h', ht ▸ hv.with_sealed.answered _, ht ▸ rfl, rfl⟩

/-! ## Another count of resets -/

/-- A written slot reads the same under every count of resets. -/
theorem Machine.State.slot_with_resets {s : State} {j : Nat} (hj : (s.slots.read j).isSome = true) (n : Nat) :
    State.slot { s with resets := n } j = s.slot j := by
  obtain ⟨v, hv⟩ := Option.isSome_iff_exists.mp hj
  rw [State.slot_of_read hv, State.slot_of_read (s := { s with resets := n }) hv]

/-- Under the invariant every slot below `M` is written: in IDLE there is none, and in a filter all are. -/
theorem Machine.State.Inv.sameVisible_with_resets {s : State} (hinv : s.Inv) (n : Nat) :
    SameVisible s { s with resets := n } := by
  refine ⟨rfl, rfl, rfl, rfl, fun j hj => ?_⟩
  by_cases hp : s.phase = .idle
  · obtain ⟨-, -, hm⟩ := hinv.idle_zero hp
    rw [hm] at hj
    exact absurd hj (Nat.not_lt_zero j)
  · exact hinv.slot_resets hp n hj

/-- One round of raising a slot of the filter. -/
theorem Machine.State.raiseSlots_cons {new : Slot} {c : Nat} {cs : List Nat} {s : State} (hc : c < s.m.toNat) :
    State.raiseSlots new (c :: cs) s =
      State.raiseSlots new cs (if s.slot c ≤ new then { s with slots := s.slots.write c new } else s) := by
  rw [State.raiseSlots, State.readSlot_of hc, State.writeSlot, if_pos hc]
  by_cases hle : s.slot c ≤ new
  · simp only [if_pos hle]
  · simp only [if_neg hle]

/-- Raising written slots to a value does not depend on the count of resets. -/
theorem Machine.State.raiseSlots_with_resets {new : Slot} {cs : List Nat} {s t : State} (n : Nat)
    (hwritten : ∀ c ∈ cs, (s.slots.read c).isSome = true) (h : State.raiseSlots new cs s = .ok t) :
    State.raiseSlots new cs { s with resets := n } = .ok { t with resets := n } := by
  induction cs generalizing s with
  | nil =>
    cases h
    rfl
  | cons c cs ih =>
    obtain ⟨hc, hcs⟩ := List.forall_mem_cons.mp hwritten
    obtain ⟨-, hlt, -⟩ := State.raiseSlots_ok h
    have hm : c < s.m.toNat := hlt c List.mem_cons_self
    rw [State.raiseSlots_cons hm] at h
    rw [State.raiseSlots_cons (s := { s with resets := n }) hm, State.slot_with_resets hc]
    by_cases hle : s.slot c ≤ new
    · rw [if_pos hle] at h ⊢
      refine ih (fun d hd => ?_) h
      rw [SlotMem.read_write]
      split
      · rfl
      · exact hcs d hd
    · rw [if_neg hle] at h ⊢
      exact ih hcs h

theorem Machine.State.Inv.insert_with_resets {s u : State} (hinv : s.Inv) (hp : s.phase ≠ .idle) {freq : Word}
    {key : Key} (hu : s.insert freq key = .ok u) (n : Nat) :
    State.insert { s with resets := n } freq key = .ok { u with resets := n } := by
  obtain ⟨mn, hmn, hraise⟩ := State.insert_ok hu
  have hwritten : ∀ c ∈ s.candidates key, (s.slots.read c).isSome = true := fun c hc =>
    hinv.slots_written hp c (hinv.candidates hp key c hc)
  rw [State.insert, (hinv.sameVisible_with_resets n).minCandidate, hmn]
  exact State.raiseSlots_with_resets n hwritten hraise

/-- Settles O54: the two states end alike, and no update but the insertion reads a slot. -/
theorem resetContentsAreUnobservable : Obligations.ResetContentsAreUnobservable := by
  intro i s t n hinv h
  cases (hinv.sameVisible_with_resets n).alikeCompletion h with
  | answered r ht h' =>
    rw [h', ht]
    rfl
  | configured w k m r ht h' =>
    rw [h', ht]
    rfl
  | inserted freq key u hi hp hu ht =>
    subst hi ht
    exact execSbfInsert_build (s := { s with resets := n }) hp
      (hinv.insert_with_resets (hp.trans_ne (by decide)) hu n)
  | sealed ht h' =>
    rw [h', ht]
    rfl

end Sys2Proof
end

section
/-! Family other, part 4: the laws of insertions (41_filter R72, R77, R83, R86, R87) and the host's construction
sequence (R88).

What a key's insertions leave is a function of their total frequency, `Accumulated`, so unit insertions and one batch
leave the same slots. -/

namespace Sys2Proof

open Sys2Proof.Machine Sys2Proof.Spec

/-! ## The floor -/

theorem Spec.HoldsFloor.mono {s : State} {x : Key} {F F' : Nat} (h : HoldsFloor s x F) (hle : F' ≤ F) :
    HoldsFloor s x F' := fun j hj => (min_le_min_right _ hle).trans (h j hj)

theorem Spec.HoldsFloor.of_same_slots {s t : State} {x : Key} {F : Nat} (h : HoldsFloor s x F) (hw : t.w = s.w)
    (hk : t.k = s.k) (hm : t.m = s.m) (hslots : ∀ j, t.slot j = s.slot j) : HoldsFloor t x F := by
  intro j hj
  rw [IsCandidate, hk, hm] at hj
  rw [hw, hslots]
  exact h j hj

/-- Settles O32: the step of the floor for an insertion; no other command but configuring touches a slot or a register
that the floor speaks of. -/
theorem insertionKeepsTheFloor : Obligations.InsertionKeepsTheFloor := by
  intro s x F hinv hF
  refine ⟨fun hp freq key => ?_, fun i t hinit hcfg h => ?_⟩
  · obtain ⟨u, hu⟩ := hinv.insert_answers (hp.trans_ne (by decide)) freq key
    obtain ⟨-, -, -, -, -, -, hresponses⟩ := State.insert_frame hu
    have hfloor := hF.insert hu
    exact ⟨u.answered [0x00], execSbfInsert_build hp hu, by rw [State.answered_responses, hresponses], hfloor⟩
  · rcases exec_next_of_not_configures hinit hcfg h with ⟨hw, hk, hm, hslots⟩ | ⟨freq, key, u, hu, rfl⟩
    · exact hF.of_same_slots hw hk hm hslots
    · have hfloor := (hF.insert hu).mono (Nat.le_add_right F _)
      exact hfloor

/-! ## Insertions that leave slots -/

/-- No candidate slot is below the least candidate, so adding 0 raises none. -/
theorem satAdd_zero_le_slot {s : State} {key : Key} {mn : Nat} (hmn : s.minCandidate key = .ok mn) {j : Nat}
    (hj : j ∈ s.candidates key) : satAdd s.cap mn 0 ≤ (s.slot j).toNat := by
  obtain ⟨hle, -⟩ := State.minCandidate_ok hmn
  exact (Nat.min_le_left _ _).trans (hle j hj).2

theorem Machine.State.insert_zero_slot {s u : State} {key : Key} (hu : s.insert 0 key = .ok u) (j : Nat) :
    u.slot j = s.slot j := by
  obtain ⟨mn, hmn, -, hraised, hkept, -⟩ := State.insert_slots hu
  by_cases hj : j ∈ s.candidates key
  · apply BitVec.eq_of_toNat_eq
    rw [hraised j hj]
    exact Nat.max_eq_left (satAdd_zero_le_slot hmn hj)
  · exact hkept j hj

/-- Under the invariant the array is canonical, so writing back the values it holds leaves it as it is. -/
theorem Machine.State.Inv.insert_zero {s : State} (hinv : s.Inv) (hp : s.phase ≠ .idle) (key : Key) :
    s.insert 0 key = .ok s := by
  obtain ⟨mn, hmn, -⟩ := hinv.minCandidate hp key
  rw [State.insert, hmn]
  refine State.raiseSlots_self hinv.slots_canonical fun j hj => ?_
  have hlt := hinv.candidates hp key j hj
  refine ⟨hlt, hinv.slots_written hp j hlt, BitVec.le_def.mpr ?_⟩
  rw [State.satAdd_toNat]
  exact satAdd_zero_le_slot hmn hj

/-- Settles O22: whatever the state, adding 0 to the least candidate raises no slot. -/
theorem zeroFrequencyChangesNothing : Obligations.ZeroFrequencyChangesNothing := by
  intro key s
  refine ⟨fun t h j => ?_, fun hinv hp => ?_, fun hp => whenPhase_of_ne hp _⟩
  · rcases execSbfInsert_next h with ⟨-, rfl⟩ | ⟨-, u, hu, rfl⟩
    · rfl
    · exact State.insert_zero_slot hu j
  · exact execSbfInsert_build hp (hinv.insert_zero (hp.trans_ne (by decide)) key)

/-- The empty key hashes to 0 for every seed, so its candidates are all slot 0 (41_filter R72). -/
theorem eq_zero_of_mem_candidates_nil {s : State} {j : Nat} (hj : j ∈ s.candidates []) : j = 0 := by
  obtain ⟨i, -, rfl⟩ := State.mem_candidates.mp hj
  exact Nat.zero_mod _

/-- Settles O23: an insertion keeps every slot that is no candidate. -/
theorem emptyKeyTouchesOnlySlotZero : Obligations.EmptyKeyTouchesOnlySlotZero := by
  intro freq s t h j hj
  rcases execSbfInsert_next h with ⟨-, rfl⟩ | ⟨-, u, hu, rfl⟩
  · rfl
  · obtain ⟨-, -, -, -, hkept, -⟩ := State.insert_slots hu
    exact hkept j (mt eq_zero_of_mem_candidates_nil hj)

/-- Settles O24: one index for each `i < K`, each a remainder by `M ≥ 1`. -/
theorem candidateIndexIsInRange : Obligations.CandidateIndexIsInRange :=
  fun s key hinv hp => ⟨s.candidates_length key, hinv.candidates hp key⟩

/-! ## Unit insertions and one batch -/

/-- After an insertion the least candidate is the saturated sum. -/
theorem Machine.State.minCandidate_insert {s t : State} {freq : Word} {key : Key} {mn : Nat}
    (hmn : s.minCandidate key = .ok mn) (hcap : mn ≤ s.cap) (ht : s.insert freq key = .ok t) {mn' : Nat}
    (hmn' : t.minCandidate key = .ok mn') : mn' = satAdd s.cap mn freq.toNat := by
  obtain ⟨mn₀, hmn₀, -, hraised, -⟩ := State.insert_slots ht
  cases hmn.symm.trans hmn₀
  obtain ⟨-, -, hk, hm, -⟩ := State.insert_frame ht
  obtain ⟨hle', j', hj', hvalue'⟩ := State.minCandidate_ok hmn'
  obtain ⟨-, j, hj, hvalue⟩ := State.minCandidate_ok hmn
  rw [State.candidates_congr key hk hm] at hle' hj'
  have hlow := (hle' j hj).2
  have hhigh := hraised j' hj'
  rw [hraised j hj, hvalue] at hlow
  unfold satAdd at *
  omega

/-- The filter `t` under construction is what insertions of the key with total frequency `f` make of `s`: its least
candidate and its slots are the saturated sums. -/
structure Accumulated (s : State) (key : Key) (mn f : Nat) (t : State) : Prop where
  inv : t.Inv
  phase : t.phase = .build
  cap : t.cap = s.cap
  candidates : t.candidates key = s.candidates key
  least : t.minCandidate key = .ok (satAdd s.cap mn f)
  raised : ∀ j ∈ s.candidates key, (t.slot j).toNat = max (s.slot j).toNat (satAdd s.cap mn f)
  kept : ∀ j, j ∉ s.candidates key → t.slot j = s.slot j

theorem satAdd_satAdd (cap a f g : Nat) : satAdd cap (satAdd cap a f) g = satAdd cap a (f + g) := by
  unfold satAdd
  omega

theorem satAdd_mono {cap a f g : Nat} (h : f ≤ g) : satAdd cap a f ≤ satAdd cap a g :=
  min_le_min_right _ (Nat.add_le_add_left h a)

theorem Accumulated.refl {s : State} (hinv : s.Inv) (hp : s.phase = .build) {key : Key} {mn : Nat}
    (hmn : s.minCandidate key = .ok mn) (hcap : mn ≤ s.cap) : Accumulated s key mn 0 s where
  inv := hinv
  phase := hp
  cap := rfl
  candidates := rfl
  least := hmn.trans (congrArg _ (Nat.min_eq_left hcap).symm)
  raised _ hj := (Nat.max_eq_left (satAdd_zero_le_slot hmn hj)).symm
  kept _ _ := rfl

theorem sameVisible_answered (s : State) (r : Packet) : SameVisible s (s.answered r) :=
  ⟨rfl, rfl, rfl, rfl, fun _ _ => rfl⟩

theorem Accumulated.answered {s t : State} {key : Key} {mn f : Nat} (h : Accumulated s key mn f t) (r : Packet) :
    Accumulated s key mn f (t.answered r) :=
  ⟨h.inv.answered r, h.phase, h.cap, h.candidates, ((sameVisible_answered t r).minCandidate key).trans h.least,
    h.raised, h.kept⟩

/-- One more insertion of the key adds its frequency. -/
theorem Accumulated.insert {s t u : State} {key : Key} {mn f : Nat} {freq : Word} (h : Accumulated s key mn f t)
    (hu : t.insert freq key = .ok u) : Accumulated s key mn (f + freq.toNat) u := by
  obtain ⟨hinv, hp, hcap, hcandidates, hleast, hraised, hkept⟩ := h
  have huInv := hinv.insert (hp.trans_ne (by decide)) hu
  obtain ⟨hphase, hw, hk, hm, -⟩ := State.insert_frame hu
  have hp' := hphase.trans hp
  obtain ⟨mn₀, hmn₀, -, hraised', hkept', -⟩ := State.insert_slots hu
  cases hleast.symm.trans hmn₀
  obtain ⟨mn', hmn', -⟩ := huInv.minCandidate (hp'.trans_ne (by decide)) key
  have hleast' := State.minCandidate_insert hleast (hcap ▸ satAdd_le _ _ _) hu hmn'
  rw [hcap, satAdd_satAdd] at hraised' hleast'
  rw [hcandidates] at hraised' hkept'
  refine ⟨huInv, hp', ?_, (State.candidates_congr key hk hm).trans hcandidates, hleast' ▸ hmn', fun j hj => ?_,
    fun j hj => (hkept' j hj).trans (hkept j hj)⟩
  · rw [State.cap, hw, ← State.cap, hcap]
  · have hmono := satAdd_mono (cap := s.cap) (a := mn) (Nat.le_add_right f freq.toNat)
    rw [hraised' j hj, hraised j hj]
    omega

theorem Accumulated.sbfInsert {s t : State} {key : Key} {mn f : Nat} (h : Accumulated s key mn f t) (freq : Word) :
    ∃ u, exec (.sbfInsert freq key) t = .next u ∧ Accumulated s key mn (f + freq.toNat) u := by
  obtain ⟨u, hu⟩ := h.inv.insert_answers (h.phase.trans_ne (by decide)) freq key
  exact ⟨u.answered [0x00], execSbfInsert_build h.phase hu, (h.insert hu).answered _⟩

/-- `n` unit insertions add `n`, by induction on `n`. -/
theorem Accumulated.unitInsertions {s t : State} {key : Key} {mn f : Nat} (h : Accumulated s key mn f t) (n : Nat) :
    ∃ u, runCommands (List.replicate n (sbfInc key)) t = .next u ∧ Accumulated s key mn (f + n) u := by
  induction n generalizing t f with
  | zero => exact ⟨t, rfl, h⟩
  | succ n ih =>
    obtain ⟨t', ht', hstep⟩ := h.sbfInsert 1
    obtain ⟨u, hu, hrest⟩ := ih hstep
    rw [show (1 : Word).toNat = 1 from rfl, Nat.add_assoc, Nat.add_comm 1 n] at hrest
    exact ⟨u, (runCommands_cons ht').trans hu, hrest⟩

theorem Accumulated.slot_unique {s t u : State} {key : Key} {mn f : Nat} (ht : Accumulated s key mn f t)
    (hu : Accumulated s key mn f u) (j : Nat) : t.slot j = u.slot j := by
  by_cases hj : j ∈ s.candidates key
  · exact BitVec.eq_of_toNat_eq ((ht.raised j hj).trans (hu.raised j hj).symm)
  · rw [ht.kept j hj, hu.kept j hj]

/-- Settles O35: the unit insertions and the batch accumulate the same total. -/
theorem unitInsertionsEqualOneBatch : Obligations.UnitInsertionsEqualOneBatch := by
  intro s f key hinv hp
  obtain ⟨mn, hmn, hcap⟩ := hinv.minCandidate (hp.trans_ne (by decide)) key
  have hstart := Accumulated.refl hinv hp hmn hcap
  obtain ⟨t, hrun, ht⟩ := hstart.unitInsertions f.toNat
  obtain ⟨u, hexec, hu⟩ := hstart.sbfInsert f
  exact ⟨t, u, hrun, hexec, ht.slot_unique hu⟩

/-! ## The order of insertions -/

/-- A filter under construction with the sizes of the example of 41_filter R86, and its two slots. -/
def exampleFilter (s : State) (a b : Slot) : State :=
  { s with phase := .build, w := 4, k := 2, m := 2, slots := [(0, a), (1, b)] }

/-- The indices of `"a"` and of `"d"` on two slots with two hashes (95_test_vectors V-F13, V-F14). -/
theorem slotIndex_of_example :
    (List.range 2).map (slotIndex 2 [0x61]) = [0, 0] ∧ (List.range 2).map (slotIndex 2 [0x64]) = [1, 0] := by
  decide

theorem exampleFilter_candidates (s : State) (a b : Slot) :
    (exampleFilter s a b).candidates [0x61] = [0, 0] ∧ (exampleFilter s a b).candidates [0x64] = [1, 0] :=
  slotIndex_of_example

theorem exampleFilter_insert_a (s : State) :
    (exampleFilter s 0 0).insert 1 [0x61] = .ok (exampleFilter s 1 0) ∧
      (exampleFilter s 1 1).insert 1 [0x61] = .ok (exampleFilter s 2 1) := by
  simp only [State.insert, State.minCandidate, (exampleFilter_candidates _ _ _).1]
  exact ⟨rfl, rfl⟩

theorem exampleFilter_insert_d (s : State) :
    (exampleFilter s 0 0).insert 1 [0x64] = .ok (exampleFilter s 1 1) ∧
      (exampleFilter s 1 0).insert 1 [0x64] = .ok (exampleFilter s 1 1) := by
  simp only [State.insert, State.minCandidate, (exampleFilter_candidates _ _ _).2]
  exact ⟨rfl, rfl⟩

theorem exampleFilter_exec {s : State} {a b a' b' : Slot} {key : Key}
    (h : (exampleFilter s a b).insert 1 key = .ok (exampleFilter s a' b')) :
    exec (.sbfInsert 1 key) (exampleFilter s a b) = .next (exampleFilter (s.answered [0x00]) a' b') :=
  execSbfInsert_build rfl h

/-- Settles O36: `"a"` and then `"d"` meet in slot 0 without raising it, and in the other order they do. -/
theorem insertionOrderMatters : Obligations.InsertionOrderMatters := by
  intro s hp hw hk hm hslots
  have hs : s = exampleFilter s 0 0 := by
    cases s
    cases hp
    cases hw
    cases hk
    cases hm
    cases hslots
    rfl
  rw [hs]
  constructor
  · have hfirst := exampleFilter_exec (exampleFilter_insert_a s).1
    have hsecond := exampleFilter_exec (exampleFilter_insert_d (s.answered [0x00])).2
    exact ⟨_, (runCommands_cons hfirst).trans (runCommands_cons hsecond), rfl⟩
  · have hfirst := exampleFilter_exec (exampleFilter_insert_d s).1
    have hsecond := exampleFilter_exec (exampleFilter_insert_a (s.answered [0x00])).2
    exact ⟨_, (runCommands_cons hfirst).trans (runCommands_cons hsecond), rfl⟩

/-! ## Construction by the host -/

/-- A list of insertions and the seal into a filter under construction: all of it answers OK, and the filter keeps its
sizes. -/
theorem runCommands_insertions_seal {s : State} (hinv : s.Inv) (hp : s.phase = .build) (pairs : List (Key × Word)) :
    ∃ t, runCommands (insertions pairs ++ [.sbfSeal]) s = .next t ∧ t.Inv ∧ t.phase = .sealed ∧ t.w = s.w ∧
      t.k = s.k ∧ t.m = s.m ∧ t.inbox = s.inbox ∧
      t.responses = s.responses ++ List.replicate (pairs.length + 1) [0x00] := by
  induction pairs generalizing s with
  | nil =>
    have hseal : exec .sbfSeal s = .next (State.answered { s with phase := .sealed } [0x00]) := execSbfSeal_build hp
    exact ⟨_, runCommands_cons hseal, (hinv.with_sealed (hp.trans_ne (by decide))).answered _, rfl, rfl, rfl, rfl,
      rfl, rfl⟩
  | cons pair pairs ih =>
    obtain ⟨key, freq⟩ := pair
    have hidle : s.phase ≠ .idle := hp.trans_ne (by decide)
    obtain ⟨u, hu⟩ := hinv.insert_answers hidle freq key
    obtain ⟨hphase, hw, hk, hm, -, hinbox, hresponses⟩ := State.insert_frame hu
    obtain ⟨t, hrun, htInv, hsealed, htw, htk, htm, htinbox, htresponses⟩ :=
      ih ((hinv.insert hidle hu).answered [0x00]) (hphase.trans hp)
    have hexec : exec (.sbfInsert freq key) s = .next (u.answered [0x00]) := execSbfInsert_build hp hu
    refine ⟨t, (runCommands_cons hexec).trans hrun, htInv, hsealed, htw.trans hw, htk.trans hk, htm.trans hm,
      htinbox.trans hinbox, ?_⟩
    rw [htresponses, State.answered_responses, hresponses, List.append_assoc]
    rfl

theorem lastOk_answered (s : State) (status : Byte) (fields : Packet) :
    (s.answered (status :: fields)).lastOk = (status == 0x00) := by
  rw [State.lastOk, State.answered_responses, List.getLast?_concat]
  rfl

/-- Settles O37: `SBF_INIT` answers an error and the host stops, or it configures a filter, into which the insertions
and the seal go. -/
theorem constructionSucceedsOrChangesNothing : Obligations.ConstructionSucceedsOrChangesNothing := by
  intro s pairs p w hinv
  obtain ⟨t, ht⟩ := hinv.exec_answers (.sbfInit (BitVec.ofNat 32 pairs.length) p w)
  have htInv := hinv.exec ht
  rw [sbfBuild, ht]
  dsimp only
  rcases execSbfInit_next ht with rfl | rfl | ⟨hw, -, -, -, -, rfl⟩
  · rw [lastOk_answered]
    exact ⟨_, rfl, htInv, rfl, .inr ⟨s.answered_sameBlock _, 0x01, .inl rfl, rfl⟩⟩
  · rw [lastOk_answered]
    exact ⟨_, rfl, htInv, rfl, .inr ⟨s.answered_sameBlock _, 0x02, .inr rfl, rfl⟩⟩
  · obtain ⟨u, hrun, huInv, hsealed, huw, huk, hum, hinbox, hresponses⟩ := runCommands_insertions_seal htInv rfl pairs
    rw [lastOk_answered]
    refine ⟨u, hrun, huInv, hinbox, .inl ⟨hsealed, ?_, ?_⟩⟩
    · rw [huw]
      exact setWidth_toNat_of_legal ((widthOk_iff w).mp hw).2
    · rw [hresponses, huk, hum, ← putU32_eq_u32Bytes, ← putU32_eq_u32Bytes]
      rfl

end Sys2Proof
end

section
/-! Family other, part 5: dropped padding and the text of an exported filter (42_codec R104, R106). -/

namespace Sys2Proof

open Sys2Proof.Machine Sys2Proof.Spec

/-! ## Dropped padding -/

/-- The first bits of `bin_n(v)` are those of `v` without its low bits (00_scope R8). -/
theorem binN_take (n k v : Nat) : (binN n v).take (n - k) = binN (n - k) (v / 2 ^ k) := by
  refine List.ext_getElem (by simp) fun j hj _ => ?_
  rw [List.length_take, binN_length] at hj
  rw [List.getElem_take, binN_getElem, binN_getElem, Nat.div_div_eq_div_mul, ← pow_add,
    show k + (n - k - 1 - j) = n - 1 - j by omega]

theorem Spec.IsHexVal.lt {c : CodeUnit} {pad : Nat} (h : IsHexVal c pad) : pad < 15 := by
  unfold IsHexVal at h
  omega

theorem groupBits_append_singleton (rest : Text) (c : CodeUnit) :
    groupBits (rest ++ [c]) = groupBits rest ++ binN 15 (c.toNat - 161) := by
  simp [groupBits]

/-- What is left of the last group are the bits above the padding. -/
theorem groupBits_take_padding {pad : Nat} (hpad : pad < 15) (rest : Text) (c : CodeUnit) :
    (groupBits (rest ++ [c])).take (15 * (rest ++ [c]).length - pad) =
      groupBits rest ++ binN (15 - pad) ((c.toNat - 161) / 2 ^ pad) := by
  have hlen : 15 * (rest ++ [c]).length - pad = (groupBits rest).length + (15 - pad) := by
    rw [groupBits_length, List.length_append, List.length_singleton]
    omega
  rw [groupBits_append_singleton, hlen, List.take_length_add_append, binN_take]

/-- What a text with a last data character decodes to: the bits of that character above the padding count. -/
theorem b15Decode_append_singleton {header c : CodeUnit} {rest : Text} {pad : Nat} (hheader : IsHexVal header pad)
    (hc : isDataChar c = true) :
    b15Decode (header :: (rest ++ [c])) =
      if rest.all isDataChar then some (groupBits rest ++ binN (15 - pad) ((c.toNat - 161) / 2 ^ pad)) else none := by
  by_cases hrest : rest.all isDataChar = true
  · have hall : ∀ d ∈ rest ++ [c], isDataChar d = true :=
      List.forall_mem_append.mpr ⟨List.all_eq_true.mp hrest, List.forall_mem_singleton.mpr hc⟩
    have hlt := hheader.lt
    have hle : pad ≤ 15 * (rest ++ [c]).length := by
      rw [List.length_append, List.length_singleton]
      omega
    rw [b15Decode_cons (hexVal_eq_some_iff.mpr hheader) hall hle, groupBits_take_padding hlt, if_pos hrest]
  · obtain ⟨d, hd, hbad⟩ := List.all_eq_false.mp (Bool.eq_false_iff.mpr hrest)
    rw [if_neg hrest]
    exact b15Decode_of_isUndecodable
      (.inr (.inr (.inl ⟨d, List.mem_append_left _ hd, mt isDataChar_iff.mpr hbad⟩)))

/-- Settles O42: both texts decode to the same value, in which the last character counts without its low bits. -/
theorem droppedPaddingIsNotExamined : Obligations.DroppedPaddingIsNotExamined := by
  intro header c c' rest pad s hheader hc1 hc2 hc'1 hc'2 hsame
  have hdecode : b15Decode (header :: (rest ++ [c])) = b15Decode (header :: (rest ++ [c'])) := by
    rw [b15Decode_append_singleton hheader (isDataChar_iff.mpr ⟨hc1, hc2⟩),
      b15Decode_append_singleton hheader (isDataChar_iff.mpr ⟨hc'1, hc'2⟩), hsame]
  rw [exec, exec, execB15Dec, execB15Dec, hdecode]

/-! ## The exported text -/

theorem lastFields_answered (s : State) (status : Byte) (fields : Packet) :
    (s.answered (status :: fields)).lastFields = fields := by
  rw [State.lastFields, State.answered_responses, List.getLast?_concat]

/-- The host reads back the counters of the response and has them encoded (30_encoding R55). -/
theorem sbfExportText_eq {s : State} {bits : Bits}
    (hexport : exec .sbfExport s = .next (s.answered (0x00 :: bitsField bits))) (hlt : bits.length < 2 ^ 32) :
    sbfExportText s =
      .next ((s.answered (0x00 :: bitsField bits)).answered (0x00 :: textField (b15Encode bits))) := by
  have hread : takeBits (bitsField bits) = .ok (bits, []) := by
    rw [← putBits_eq_bitsField, ← List.append_nil (putBits bits)]
    exact takeBits_put bits [] hlt
  rw [sbfExportText, hexport]
  simp only [lastOk_answered, lastFields_answered, hread, beq_self_eq_true, if_true]
  exact exec_b15Enc bits _

/-- Settles O43: the text of `M·W` bits has one character for each 15 of them. -/
theorem exportTextLength : Obligations.ExportTextLength := by
  intro s hinv hp
  obtain ⟨bits, hexport, hlen, hlt, -⟩ := (sbfExportFollowsItsRule s).2 hinv hp
  exact ⟨_, b15Encode bits, sbfExportText_eq hexport hlt,
    (s.answered_sameBlock _).trans (State.answered_sameBlock _ _), List.getLast?_concat,
    by rw [b15Encode_length, hlen]⟩

end Sys2Proof
end

section
/-! Family other, part 6: the rate and the sizing of a filter (30_encoding R45; 41_filter R70, R71).

The integers of `Machine/Sizing.lean` are read as real numbers: `lnTwoLower` and `lnTwoUpper` enclose `ln 2`,
`negLogLower` and `negLogUpper` enclose `−ln p`, each within a relative `2^-50`. A size is then the ceiling of the
formula on one end of the enclosures, and the margins are arithmetic. -/

namespace Sys2Proof

open Sys2Proof.Machine Sys2Proof.Spec

/-! ## The exact value of a rate -/

/-- The real value of a datum by the parts that the model computes with (30_encoding R45). -/
theorem binary64Value_eq (p : F64) :
    binary64Value p = (-1) ^ (p.toNat / 2 ^ 63) * ((F64.significand p : ℝ) * 2 ^ F64.scale p / 2 ^ 1075) := by
  have h1074 : (2 : ℝ) ^ 1075 = 2 ^ 52 * 2 ^ 1022 * 2 := by rw [← pow_add, ← pow_succ]
  have h1075 : (2 : ℝ) ^ 1075 = 2 ^ 52 * 2 ^ 1023 := by rw [← pow_add]
  rw [binary64Value]
  congr 1
  by_cases hexp : p.toNat / 2 ^ 52 % 2 ^ 11 = 0
  · have hsig : F64.significand p = p.toNat % 2 ^ 52 := if_pos hexp
    have hscale : F64.scale p = 1 := by rw [F64.scale, F64.exponentField, hexp]; rfl
    rw [if_pos hexp, hsig, hscale, h1074, zpow_neg,
      show (1022 : ℤ) = ((1022 : ℕ) : ℤ) from rfl, zpow_natCast]
    field_simp
  · have hsig : F64.significand p = 2 ^ 52 + p.toNat % 2 ^ 52 := if_neg hexp
    have hscale : F64.scale p = p.toNat / 2 ^ 52 % 2 ^ 11 := Nat.max_eq_right (Nat.one_le_iff_ne_zero.mpr hexp)
    rw [if_neg hexp, hsig, hscale, h1075, zpow_sub₀ two_ne_zero, zpow_natCast,
      show (1023 : ℤ) = ((1023 : ℕ) : ℤ) from rfl, zpow_natCast, Nat.cast_add, Nat.cast_pow, Nat.cast_ofNat]
    field_simp

/-- The magnitude of a datum is positive, and at most 1, exactly if the integers of `rateOk` say so. -/
theorem magnitude_pos_iff (p : F64) :
    0 < (F64.significand p : ℝ) * 2 ^ F64.scale p / 2 ^ 1075 ↔ 0 < F64.significand p := by
  rw [div_pos_iff_of_pos_right (by positivity), mul_pos_iff_of_pos_right (by positivity), Nat.cast_pos]

theorem magnitude_le_one_iff (p : F64) :
    (F64.significand p : ℝ) * 2 ^ F64.scale p / 2 ^ 1075 ≤ 1 ↔
      F64.significand p * 2 ^ F64.scale p ≤ 2 ^ 1075 := by
  rw [div_le_one (by positivity)]
  exact_mod_cast Iff.rfl

theorem isFinite_iff (p : F64) : F64.isFinite p = true ↔ p.toNat / 2 ^ 52 % 2 ^ 11 ≠ 2047 := decide_eq_true_iff

/-- The rate check by its parts (41_filter R71). -/
theorem rateOk_iff (p : F64) : rateOk p = true ↔ F64.sign p = false ∧ p.toNat / 2 ^ 52 % 2 ^ 11 ≠ 2047 ∧
    0 < F64.significand p ∧ F64.significand p * 2 ^ F64.scale p ≤ 2 ^ 1075 := by
  simp only [rateOk, Bool.and_eq_true, Bool.not_eq_true', isFinite_iff, decide_eq_true_eq, and_assoc]

/-- A datum without the sign bit is its magnitude (30_encoding R45). -/
theorem binary64Value_of_nonneg {p : F64} (h : F64.sign p = false) :
    binary64Value p = (F64.significand p : ℝ) * 2 ^ F64.scale p / 2 ^ 1075 := by
  have hlt : p.toNat / 2 ^ 63 < 2 := by have := p.isLt; omega
  have hne : p.toNat / 2 ^ 63 ≠ 1 := mt (sign_iff p).mpr (Bool.eq_false_iff.mp h)
  have hzero : p.toNat / 2 ^ 63 = 0 := by omega
  rw [binary64Value_eq, hzero, pow_zero, one_mul]

theorem binary64Value_of_neg {p : F64} (h : F64.sign p = true) : binary64Value p ≤ 0 := by
  have hmagnitude : 0 ≤ (F64.significand p : ℝ) * 2 ^ F64.scale p / 2 ^ 1075 := by positivity
  rw [binary64Value_eq, (sign_iff p).mp h, pow_one, neg_one_mul]
  exact neg_nonpos.mpr hmagnitude

/-- Settles O12: a negative datum has no positive value, and the value of another is its magnitude. -/
theorem rateCheckIsOnTheExactValue : Obligations.RateCheckIsOnTheExactValue := by
  intro p
  rw [rateOk_iff]
  by_cases hneg : F64.sign p = true
  · have hvalue := binary64Value_of_neg hneg
    exact ⟨fun ⟨hpos, _⟩ => absurd hneg (Bool.eq_false_iff.mp hpos),
      fun ⟨_, hpos, _⟩ => absurd hpos (not_lt.mpr hvalue)⟩
  · have hpos := Bool.eq_false_iff.mpr hneg
    rw [binary64Value_of_nonneg hpos, magnitude_pos_iff, magnitude_le_one_iff, and_iff_right hpos]

/-! ## The logarithm of a rate -/

/-- `−ln p` of a rate. -/
noncomputable def negLog (p : F64) : ℝ := -Real.log (binary64Value p)

theorem slotCountReal_eq (n : Word) (p : F64) : slotCountReal n p = n.toNat * negLog p / Real.log 2 ^ 2 := by
  rw [slotCountReal, negLog, neg_mul, mul_neg]

/-- A product that grew by `f` or by a power of two is larger. -/
theorem eq_zero_of_mul_pow_le {a c d f : Nat} (ha : 0 < a) (hc : 0 < c) (h : (a + f) * (c * 2 ^ d) ≤ a * c) :
    f = 0 ∧ d = 0 := by
  rw [Nat.mul_comm c, ← Nat.mul_assoc] at h
  have hle : (a + f) * 2 ^ d ≤ a := Nat.le_of_mul_le_mul_right h hc
  have hf : a + f ≤ (a + f) * 2 ^ d := Nat.le_mul_of_pos_right _ (Nat.pow_pos two_pos)
  rcases Nat.eq_zero_or_pos d with hd | hd
  · exact ⟨by omega, hd⟩
  · have htwo : (a + f) * 2 ≤ (a + f) * 2 ^ d := Nat.mul_le_mul_left _ (Nat.le_self_pow hd.ne' 2)
    omega

theorem log2_add_le_of_mul_pow_le {a e n : Nat} (ha : 0 < a) (h : a * 2 ^ e ≤ 2 ^ n) : a.log2 + e ≤ n := by
  refine (Nat.pow_le_pow_iff_right one_lt_two).mp ?_
  calc 2 ^ (a.log2 + e) = 2 ^ a.log2 * 2 ^ e := pow_add ..
    _ ≤ a * 2 ^ e := Nat.mul_le_mul_right _ (Nat.log2_self_le ha.ne')
    _ ≤ 2 ^ n := h

section Rate

variable {p : F64} (h : rateOk p = true)
include h

theorem value_of_rateOk : binary64Value p = (F64.significand p : ℝ) * 2 ^ F64.scale p / 2 ^ 1075 :=
  binary64Value_of_nonneg (rateOk_parts h).1

theorem value_pos_of_rateOk : 0 < binary64Value p := ((rateCheckIsOnTheExactValue p).mp h).2.1

theorem negLog_nonneg : 0 ≤ negLog p :=
  neg_nonneg.mpr (Real.log_nonpos (value_pos_of_rateOk h).le ((rateCheckIsOnTheExactValue p).mp h).2.2)

theorem log2_add_scale_le : (F64.significand p).log2 + F64.scale p ≤ 1075 := by
  obtain ⟨-, hpos, hle⟩ := rateOk_parts h
  exact log2_add_le_of_mul_pow_le hpos hle

/-- `p = (c/d)·2^-s` in the parts that the model computes with. -/
theorem value_eq_shifted :
    binary64Value p = (F64.significand p : ℝ) / rateDen p / 2 ^ rateShift p := by
  have hlog := log2_add_scale_le h
  have hshift : 1075 = (F64.significand p).log2 + rateShift p + F64.scale p := by
    unfold rateShift
    omega
  have hpow : (2 : ℝ) ^ 1075 = rateDen p * 2 ^ rateShift p * 2 ^ F64.scale p := by
    rw [rateDen, Nat.cast_pow, Nat.cast_ofNat, ← pow_add, ← pow_add, ← hshift]
  have hscale : (2 : ℝ) ^ F64.scale p ≠ 0 := by positivity
  rw [value_of_rateOk h, hpow, mul_div_mul_right _ _ hscale, div_div]

theorem negLog_eq : negLog p =
    rateShift p * Real.log 2 - Real.log ((F64.significand p : ℝ) / (rateDen p : ℝ)) := by
  obtain ⟨-, hpos, -⟩ := rateOk_parts h
  obtain ⟨-, -, hden⟩ := rateDen_le h
  have hratio : (F64.significand p : ℝ) / (rateDen p : ℝ) ≠ 0 := by positivity
  rw [negLog, value_eq_shifted h, Real.log_div hratio (by positivity), Real.log_pow, neg_sub]

/-- With the exponent of 1 or more, only 1 itself passes the check. The power `2 ^ 1023` is generalized, as unifying it
would evaluate it. -/
theorem eq_one_of_scale (hscale : 1023 ≤ F64.scale p) : p = 0x3FF0000000000000 := by
  obtain ⟨hsign, -, hle⟩ := rateOk_parts h
  obtain ⟨d, hd⟩ := Nat.exists_eq_add_of_le hscale
  have hexp : F64.exponentField p = 1023 + d := by
    unfold F64.scale at hd
    omega
  have hsig : F64.significand p = 2 ^ 52 + F64.fraction p := if_neg (by omega)
  rw [hsig, hd, pow_add, show 1075 = 52 + 1023 from rfl, pow_add] at hle
  have hunit : 0 < 2 ^ 1023 := by positivity
  generalize 2 ^ 1023 = unit at hle hunit
  obtain ⟨hfraction, rfl⟩ := eq_zero_of_mul_pow_le (by positivity) hunit hle
  have hnonneg : p.toNat / 2 ^ 63 ≠ 1 := mt (sign_iff p).mpr (Bool.eq_false_iff.mp hsign)
  have hlt := p.isLt
  clear hle
  apply BitVec.eq_of_toNat_eq
  rw [show (0x3FF0000000000000 : F64).toNat = 1023 * 2 ^ 52 from rfl]
  unfold F64.exponentField at hexp
  unfold F64.fraction at hfraction
  omega

/-- A rate other than 1 is at most `1 − 2^-53`, because its significand has 53 bits. -/
theorem value_le_of_ne_one (hne : p ≠ 0x3FF0000000000000) : binary64Value p ≤ 1 - 1 / 2 ^ 53 := by
  have hscale : F64.scale p ≤ 1022 := by
    have := mt (eq_one_of_scale h) hne
    omega
  have hsig : (F64.significand p : ℝ) ≤ 2 ^ 53 - 1 := by
    rw [le_sub_iff_add_le]
    exact_mod_cast significand_lt p
  have hpow : (2 : ℝ) ^ 1075 = 2 ^ 53 * 2 ^ 1022 := by rw [← pow_add]
  calc binary64Value p = (F64.significand p : ℝ) * 2 ^ F64.scale p / (2 ^ 53 * 2 ^ 1022) := by
        rw [value_of_rateOk h, hpow]
    _ ≤ (2 ^ 53 - 1) * 2 ^ 1022 / (2 ^ 53 * 2 ^ 1022) := by gcongr; norm_num
    _ = (2 ^ 53 - 1) / 2 ^ 53 := mul_div_mul_right _ _ (by positivity)
    _ = 1 - 1 / 2 ^ 53 := by rw [sub_div, div_self (by positivity)]

theorem le_negLog_of_ne_one (hne : p ≠ 0x3FF0000000000000) : 1 / 2 ^ 53 ≤ negLog p := by
  have hlog := Real.log_le_sub_one_of_pos (value_pos_of_rateOk h)
  have hvalue := value_le_of_ne_one h hne
  rw [negLog]
  linarith

end Rate

/-! ## The enclosures as real numbers -/

/-- The lower end of the enclosure of `ln 2`. Irreducible, as its integer is too large to be evaluated in passing. -/
@[irreducible] noncomputable def lnTwoLower : ℝ := lnLower 2 1 / lnUnit

/-- The upper end of the enclosure of `ln 2`. -/
@[irreducible] noncomputable def lnTwoUpper : ℝ := lnUpper 2 1 / lnUnit

/-- The lower end of the enclosure of `−ln p`. -/
@[irreducible] noncomputable def negLogLower (p : F64) : ℝ := negLnLower p / lnUnit

/-- The upper end of the enclosure of `−ln p`. -/
@[irreducible] noncomputable def negLogUpper (p : F64) : ℝ := negLnUpper p / lnUnit

theorem negLogLower_nonneg (p : F64) : 0 ≤ negLogLower p := by
  rw [negLogLower]
  exact div_nonneg (Nat.cast_nonneg _) (Nat.cast_nonneg _)

theorem lnUnit_cast : (lnUnit : ℝ) = 2 ^ 128 := by rw [lnUnit, Nat.cast_pow, Nat.cast_ofNat]

theorem lnTwoLower_le : lnTwoLower ≤ Real.log 2 := by
  rw [lnTwoLower, div_le_iff₀' (by rw [lnUnit_cast]; positivity)]
  exact ln_two_enclosed.1

theorem le_lnTwoUpper : Real.log 2 ≤ lnTwoUpper := by
  rw [lnTwoUpper, le_div_iff₀' (by rw [lnUnit_cast]; positivity), lnUpper, lnSlack, Nat.cast_add, Nat.cast_ofNat]
  exact ln_two_enclosed.2

theorem lnTwoUpper_eq : lnTwoUpper = lnTwoLower + 512 / 2 ^ 128 := by
  rw [lnTwoUpper, lnTwoLower, lnUpper, lnSlack, Nat.cast_add, Nat.cast_ofNat, add_div, lnUnit_cast]

/-- The enclosure of `ln 2` is within a relative `2^-50`. -/
theorem lnTwo_tight :
    Real.log 2 * (1 - 1 / 2 ^ 50) ≤ lnTwoLower ∧ lnTwoUpper ≤ Real.log 2 * (1 + 1 / 2 ^ 50) := by
  have hwidth := lnTwoUpper_eq
  have hlower := lnTwoLower_le
  have hupper := le_lnTwoUpper
  have hlog := Real.log_two_gt_d9
  norm_num at hwidth hlog ⊢
  constructor <;> linarith

theorem log_two_pos : 0 < Real.log 2 := Real.log_pos one_lt_two

theorem lnTwoLower_pos : 0 < lnTwoLower :=
  (mul_pos log_two_pos (by norm_num)).trans_le lnTwo_tight.1

theorem lnTwoUpper_pos : 0 < lnTwoUpper := log_two_pos.trans_le le_lnTwoUpper

theorem negLog_enclosed {p : F64} (h : rateOk p = true) :
    (negLogLower p ≤ negLog p ∧ negLog p ≤ negLogUpper p) ∧
      negLog p - 1076 * 512 / 2 ^ 128 ≤ negLogLower p ∧ negLogUpper p ≤ negLog p + 1076 * 512 / 2 ^ 128 := by
  have hunit : (0 : ℝ) < 2 ^ 128 := by positivity
  have hnonneg : 0 ≤ lnUnit * negLog p := mul_nonneg (Nat.cast_nonneg _) (negLog_nonneg h)
  obtain ⟨⟨hlower, hupper⟩, hlower', hupper'⟩ := negLn_enclosed h hnonneg (by rw [negLog_eq h])
  rw [lnUnit_cast] at hlower hupper hlower' hupper'
  rw [negLogLower, negLogUpper, lnUnit_cast, div_le_iff₀' hunit, le_div_iff₀' hunit, le_div_iff₀' hunit,
    div_le_iff₀' hunit, mul_sub, mul_add, mul_div_cancel₀ _ hunit.ne']
  exact ⟨⟨hlower, hupper⟩, hlower', hupper'⟩

theorem negLnUpper_one : negLnUpper 0x3FF0000000000000 = 0 := by decide +kernel

/-- The enclosure of `−ln p` is within a relative `2^-50`: it is exact for the rate 1, and `−ln p` is not small for
another. -/
theorem negLog_tight {p : F64} (h : rateOk p = true) :
    negLog p * (1 - 1 / 2 ^ 50) ≤ negLogLower p ∧ negLogUpper p ≤ negLog p * (1 + 1 / 2 ^ 50) := by
  obtain ⟨⟨hlower, hupper⟩, hlower', hupper'⟩ := negLog_enclosed h
  by_cases hone : p = 0x3FF0000000000000
  · have hzero : negLogUpper p = 0 := by rw [negLogUpper, hone, negLnUpper_one, Nat.cast_zero, zero_div]
    have hvalue : negLog p = 0 := le_antisymm (hzero ▸ hupper) (negLog_nonneg h)
    rw [hvalue, hzero, zero_mul, zero_mul]
    exact ⟨negLogLower_nonneg p, le_rfl⟩
  · have hlarge := le_negLog_of_ne_one h hone
    norm_num at hlarge hlower' hupper' ⊢
    constructor <;> linarith

/-! ## The sizes as ceilings -/

theorem lnLower_two_pos : 0 < lnLower 2 1 := by decide +kernel

theorem lnUpper_two_pos : 0 < lnUpper 2 1 := lnLower_two_pos.trans_le (Nat.le_add_right _ _)

theorem lnUnit_pos : 0 < lnUnit := by decide

theorem sizingMargin_pos : 0 < sizingMargin := by decide

theorem sizingMargin_sub_one : ((sizingMargin - 1 : ℕ) : ℝ) = sizingMargin * (1 - 1 / 2 ^ 40) := by
  norm_num [sizingMargin]

theorem sizingMargin_add_one : ((sizingMargin + 1 : ℕ) : ℝ) = sizingMargin * (1 + 1 / 2 ^ 40) := by
  norm_num [sizingMargin]

/-- The two ways to write the quotient of a slot count: on integers, and on the enclosures. -/
theorem slotCount_quotient {a b u g : ℝ} (n c : ℝ) (hu : u ≠ 0) (hg : g ≠ 0) :
    n * a * u * (g * c) / (b ^ 2 * g) = n * (a / u) / (b / u) ^ 2 * c := by
  field_simp

theorem hashCount_quotient {a u g : ℝ} (n m c : ℝ) (hg : g ≠ 0) :
    m * a * (g * c) / (n * u * g) = m / n * (a / u) * c := by
  field_simp

theorem lnUnit_ne_zero : (lnUnit : ℝ) ≠ 0 := Nat.cast_ne_zero.mpr lnUnit_pos.ne'

theorem sizingMargin_ne_zero : (sizingMargin : ℝ) ≠ 0 := Nat.cast_ne_zero.mpr sizingMargin_pos.ne'

theorem slotCountLower_eq (n : Nat) (p : F64) :
    (slotCountLower n p : ℤ) = ⌈n * negLogLower p / lnTwoUpper ^ 2 * (1 - 1 / 2 ^ 40)⌉ := by
  rw [slotCountLower, ceilDiv_eq _ _ (Nat.mul_pos (pow_pos lnUpper_two_pos 2) sizingMargin_pos)]
  simp only [Nat.cast_mul, Nat.cast_pow, sizingMargin_sub_one]
  rw [slotCount_quotient _ _ lnUnit_ne_zero sizingMargin_ne_zero, ← negLogLower, ← lnTwoUpper]

theorem slotCountUpper_eq (n : Nat) (p : F64) :
    (slotCountUpper n p : ℤ) = ⌈n * negLogUpper p / lnTwoLower ^ 2 * (1 + 1 / 2 ^ 40)⌉ := by
  rw [slotCountUpper, ceilDiv_eq _ _ (Nat.mul_pos (pow_pos lnLower_two_pos 2) sizingMargin_pos)]
  simp only [Nat.cast_mul, Nat.cast_pow, sizingMargin_add_one]
  rw [slotCount_quotient _ _ lnUnit_ne_zero sizingMargin_ne_zero, ← negLogUpper, ← lnTwoLower]

theorem hashCountLower_eq {n : Nat} (hn : 0 < n) (m : Nat) :
    (hashCountLower n m : ℤ) = ⌈(m : ℝ) / n * lnTwoLower * (1 - 1 / 2 ^ 40)⌉ := by
  rw [hashCountLower, ceilDiv_eq _ _ (Nat.mul_pos (Nat.mul_pos hn lnUnit_pos) sizingMargin_pos)]
  simp only [Nat.cast_mul, sizingMargin_sub_one]
  rw [hashCount_quotient _ _ _ sizingMargin_ne_zero, ← lnTwoLower]

theorem hashCountUpper_eq {n : Nat} (hn : 0 < n) (m : Nat) :
    (hashCountUpper n m : ℤ) = ⌈(m : ℝ) / n * lnTwoUpper * (1 + 1 / 2 ^ 40)⌉ := by
  rw [hashCountUpper, ceilDiv_eq _ _ (Nat.mul_pos (Nat.mul_pos hn lnUnit_pos) sizingMargin_pos)]
  simp only [Nat.cast_mul, sizingMargin_add_one]
  rw [hashCount_quotient _ _ _ sizingMargin_ne_zero, ← lnTwoUpper]

/-! ## The formula between the bounds -/

/-- The formula of the slot count on enclosures: it rises with `−ln p` and the margin, and falls with `ln 2`. -/
theorem slotCount_mono {n a a' b b' c c' : ℝ} (hn : 0 ≤ n) (ha : 0 ≤ a) (haa : a ≤ a') (hb : 0 < b') (hbb : b' ≤ b)
    (hc : 0 ≤ c) (hcc : c ≤ c') : n * a / b ^ 2 * c ≤ n * a' / b' ^ 2 * c' := by
  have ha' : 0 ≤ a' := ha.trans haa
  gcongr

/-- The same of the hash count. -/
theorem hashCount_mono {q a a' c c' : ℝ} (hq : 0 ≤ q) (ha : 0 ≤ a) (haa : a ≤ a') (hc : 0 ≤ c) (hcc : c ≤ c') :
    q * a * c ≤ q * a' * c' := by
  have ha' : 0 ≤ a' := ha.trans haa
  gcongr

/-- Relative errors of the two logarithms as a factor of the slot count. -/
theorem slotCount_scale {b d : ℝ} (n a c e : ℝ) (hb : b ≠ 0) (hd : d ≠ 0) :
    n * (a * e) / (b * d) ^ 2 * c = n * a / b ^ 2 * (e / d ^ 2 * c) := by
  field_simp

section SlotCount

variable {p : F64} (h : rateOk p = true) (n : Word)
include h

theorem slotCountLower_le_formula : (slotCountLower n.toNat p : ℤ) ≤ ⌈slotCountReal n p⌉ := by
  rw [slotCountLower_eq, slotCountReal_eq, ← mul_one (_ / Real.log 2 ^ 2)]
  exact Int.ceil_le_ceil (slotCount_mono (Nat.cast_nonneg _) (negLogLower_nonneg p) (negLog_enclosed h).1.1
    log_two_pos le_lnTwoUpper (by norm_num) (by norm_num))

theorem formula_le_slotCountUpper : ⌈slotCountReal n p⌉ ≤ (slotCountUpper n.toNat p : ℤ) := by
  rw [slotCountUpper_eq, slotCountReal_eq, ← mul_one (_ / Real.log 2 ^ 2)]
  exact Int.ceil_le_ceil (slotCount_mono (Nat.cast_nonneg _) (negLog_nonneg h) (negLog_enclosed h).1.2
    lnTwoLower_pos lnTwoLower_le zero_le_one (by norm_num))

theorem slotCountReal_nonneg : 0 ≤ slotCountReal n p := by
  rw [slotCountReal_eq]
  exact div_nonneg (mul_nonneg (Nat.cast_nonneg _) (negLog_nonneg h)) (sq_nonneg _)

theorem formula_le_slotCountLower :
    ⌈slotCountReal n p * (1 - 1 / 2 ^ 39)⌉ ≤ (slotCountLower n.toNat p : ℤ) := by
  rw [slotCountLower_eq]
  refine Int.ceil_le_ceil ?_
  calc slotCountReal n p * (1 - 1 / 2 ^ 39)
      ≤ slotCountReal n p * ((1 - 1 / 2 ^ 50) / (1 + 1 / 2 ^ 50) ^ 2 * (1 - 1 / 2 ^ 40)) :=
        mul_le_mul_of_nonneg_left (by norm_num) (slotCountReal_nonneg h n)
    _ = n.toNat * (negLog p * (1 - 1 / 2 ^ 50)) / (Real.log 2 * (1 + 1 / 2 ^ 50)) ^ 2 * (1 - 1 / 2 ^ 40) := by
        rw [slotCountReal_eq, slotCount_scale _ _ _ _ log_two_pos.ne' (by norm_num)]
    _ ≤ n.toNat * negLogLower p / lnTwoUpper ^ 2 * (1 - 1 / 2 ^ 40) :=
        slotCount_mono (Nat.cast_nonneg _) (mul_nonneg (negLog_nonneg h) (by norm_num)) (negLog_tight h).1
          lnTwoUpper_pos lnTwo_tight.2 (by norm_num) le_rfl

theorem slotCountUpper_le_formula :
    (slotCountUpper n.toNat p : ℤ) ≤ ⌈slotCountReal n p * (1 + 1 / 2 ^ 39)⌉ := by
  rw [slotCountUpper_eq]
  refine Int.ceil_le_ceil ?_
  have hupper : 0 ≤ negLogUpper p := (negLog_nonneg h).trans (negLog_enclosed h).1.2
  calc n.toNat * negLogUpper p / lnTwoLower ^ 2 * (1 + 1 / 2 ^ 40)
      ≤ n.toNat * (negLog p * (1 + 1 / 2 ^ 50)) / (Real.log 2 * (1 - 1 / 2 ^ 50)) ^ 2 * (1 + 1 / 2 ^ 40) :=
        slotCount_mono (Nat.cast_nonneg _) hupper (negLog_tight h).2 (mul_pos log_two_pos (by norm_num))
          lnTwo_tight.1 (by norm_num) le_rfl
    _ = slotCountReal n p * ((1 + 1 / 2 ^ 50) / (1 - 1 / 2 ^ 50) ^ 2 * (1 + 1 / 2 ^ 40)) := by
        rw [slotCountReal_eq, slotCount_scale _ _ _ _ log_two_pos.ne' (by norm_num)]
    _ ≤ slotCountReal n p * (1 + 1 / 2 ^ 39) :=
        mul_le_mul_of_nonneg_left (by norm_num) (slotCountReal_nonneg h n)

/-- The slot count lies between its bounds, whatever the implementation chooses. -/
theorem sizingM_between : slotCountLower n.toNat p ≤ sizingM n p ∧ sizingM n p ≤ slotCountUpper n.toNat p :=
  within_bounds _ (by exact_mod_cast (slotCountLower_le_formula h n).trans (formula_le_slotCountUpper h n))

end SlotCount

section HashCount

variable {n : Word} (hn : n ≠ 0) (m : Nat)

theorem slotsPerKey_nonneg (n : Word) (m : Nat) : (0 : ℝ) ≤ (m : ℝ) / n.toNat :=
  div_nonneg (Nat.cast_nonneg _) (Nat.cast_nonneg _)

include hn

theorem hashCountLower_le_formula : (hashCountLower n.toNat m : ℤ) ≤ ⌈hashCountReal n m⌉ := by
  rw [hashCountLower_eq (toNat_pos_of_ne_zero hn), hashCountReal, ← mul_one (_ * Real.log 2)]
  exact Int.ceil_le_ceil (hashCount_mono (slotsPerKey_nonneg n m) lnTwoLower_pos.le lnTwoLower_le (by norm_num)
    (by norm_num))

theorem formula_le_hashCountUpper : ⌈hashCountReal n m⌉ ≤ (hashCountUpper n.toNat m : ℤ) := by
  rw [hashCountUpper_eq (toNat_pos_of_ne_zero hn), hashCountReal, ← mul_one (_ * Real.log 2)]
  exact Int.ceil_le_ceil (hashCount_mono (slotsPerKey_nonneg n m) log_two_pos.le le_lnTwoUpper zero_le_one
    (by norm_num))

theorem formula_le_hashCountLower :
    ⌈hashCountReal n m * (1 - 1 / 2 ^ 39)⌉ ≤ (hashCountLower n.toNat m : ℤ) := by
  rw [hashCountLower_eq (toNat_pos_of_ne_zero hn), hashCountReal]
  refine Int.ceil_le_ceil ?_
  have hq := slotsPerKey_nonneg n m
  calc (m : ℝ) / n.toNat * Real.log 2 * (1 - 1 / 2 ^ 39)
      ≤ (m : ℝ) / n.toNat * Real.log 2 * ((1 - 1 / 2 ^ 50) * (1 - 1 / 2 ^ 40)) :=
        hashCount_mono hq log_two_pos.le le_rfl (by norm_num) (by norm_num)
    _ = (m : ℝ) / n.toNat * (Real.log 2 * (1 - 1 / 2 ^ 50)) * (1 - 1 / 2 ^ 40) := by ring
    _ ≤ (m : ℝ) / n.toNat * lnTwoLower * (1 - 1 / 2 ^ 40) :=
        hashCount_mono hq (mul_nonneg log_two_pos.le (by norm_num)) lnTwo_tight.1 (by norm_num) le_rfl

theorem hashCountUpper_le_formula :
    (hashCountUpper n.toNat m : ℤ) ≤ ⌈hashCountReal n m * (1 + 1 / 2 ^ 39)⌉ := by
  rw [hashCountUpper_eq (toNat_pos_of_ne_zero hn), hashCountReal]
  refine Int.ceil_le_ceil ?_
  have hq := slotsPerKey_nonneg n m
  calc (m : ℝ) / n.toNat * lnTwoUpper * (1 + 1 / 2 ^ 40)
      ≤ (m : ℝ) / n.toNat * (Real.log 2 * (1 + 1 / 2 ^ 50)) * (1 + 1 / 2 ^ 40) :=
        hashCount_mono hq lnTwoUpper_pos.le lnTwo_tight.2 (by norm_num) le_rfl
    _ = (m : ℝ) / n.toNat * Real.log 2 * ((1 + 1 / 2 ^ 50) * (1 + 1 / 2 ^ 40)) := by ring
    _ ≤ (m : ℝ) / n.toNat * Real.log 2 * (1 + 1 / 2 ^ 39) :=
        hashCount_mono hq log_two_pos.le le_rfl (by norm_num) (by norm_num)

end HashCount

/-- The hash count lies between its bounds, whatever the implementation chooses. -/
theorem sizingK_between (n : Word) (p : F64) :
    hashCountLower n.toNat (sizingM n p) ≤ sizingK n p ∧ sizingK n p ≤ hashCountUpper n.toNat (sizingM n p) :=
  within_bounds _ (hashCountLower_le _ _)

/-- Settles O14: each bound is the formula on an enclosure of its logarithms, and the ceiling is monotone. -/
theorem sizingAllowsTheReference : Obligations.SizingAllowsTheReference :=
  fun n _ m hn hp => ⟨slotCountLower_le_formula hp n, formula_le_slotCountUpper hp n, hashCountLower_le_formula hn m,
    formula_le_hashCountUpper hn m⟩

/-- Settles O13: the enclosures and the margin `2^-40` together stay within a relative `2^-39`. -/
theorem sizingBracketsTheFormula : Obligations.SizingBracketsTheFormula := by
  intro n p hn hp
  obtain ⟨hmLower, hmUpper⟩ := sizingM_between hp n
  obtain ⟨hkLower, hkUpper⟩ := sizingK_between n p
  rw [show (2 : ℝ) ^ (-39 : ℤ) = 1 / 2 ^ 39 by norm_num]
  exact ⟨(formula_le_slotCountLower hp n).trans (by exact_mod_cast hmLower),
    le_trans (by exact_mod_cast hmUpper) (slotCountUpper_le_formula hp n),
    (formula_le_hashCountLower hn _).trans (by exact_mod_cast hkLower),
    le_trans (by exact_mod_cast hkUpper) (hashCountUpper_le_formula hn _)⟩

/-! ## Sizes of particular rates -/

theorem slotCountUpper_one (n : Nat) : slotCountUpper n 0x3FF0000000000000 = 0 := by
  have hzero : (slotCountUpper n 0x3FF0000000000000 : ℤ) = 0 := by
    rw [slotCountUpper_eq, negLogUpper, negLnUpper_one]
    simp
  exact_mod_cast hzero

theorem rateOk_one : rateOk 0x3FF0000000000000 = true := by decide +kernel

theorem sizingM_one (n : Word) : sizingM n 0x3FF0000000000000 = 0 := by
  have hupper := (sizingM_between rateOk_one n).2
  rw [slotCountUpper_one] at hupper
  exact Nat.le_zero.mp hupper

/-- A rate below 1 needs a slot, because the lower end of the enclosure of `−ln p` is positive. -/
theorem one_le_sizingM {n : Word} {p : F64} (hn : n ≠ 0) (h : rateOk p = true) (hne : p ≠ 0x3FF0000000000000) :
    1 ≤ sizingM n p := by
  have hnegLog : 0 < negLog p := (by positivity : (0 : ℝ) < 1 / 2 ^ 53).trans_le (le_negLog_of_ne_one h hne)
  have hkeys : (0 : ℝ) < n.toNat := Nat.cast_pos.mpr (toNat_pos_of_ne_zero hn)
  have hreal : 0 < slotCountReal n p * (1 - 1 / 2 ^ 39) := by
    rw [slotCountReal_eq]
    have := log_two_pos
    exact mul_pos (by positivity) (by norm_num)
  have hceil := (Int.ceil_pos.mpr hreal).trans_le (formula_le_slotCountLower h n)
  have hbound := (sizingM_between h n).1
  omega

/-- Settles O16: the enclosure of `−ln p` is 0 for the rate 1 and positive for another; `k` is at most `m + 1`. -/
theorem sizingIsPositiveBelowRateOne : Obligations.SizingIsPositiveBelowRateOne := by
  intro n p hn hp
  have hn1 := toNat_pos_of_ne_zero hn
  refine ⟨fun hone => hone ▸ sizingM_one n, fun hne => ?_, fun hmax => ?_⟩
  · have hm := one_le_sizingM hn hp hne
    exact ⟨hm, (one_le_hashCountLower n.toNat _ hn1 hm).trans (sizingK_between n p).1⟩
  · have hk := (sizingK_between n p).2.trans (hashCountUpper_le n.toNat _ hn1)
    have hcap := Config.mMax_le
    omega

/-- Settles O18: the rate 1 passes the check, and its slot count 0 is refused. -/
theorem rateOneIsInvalidParameter : Obligations.RateOneIsInvalidParameter := by
  intro n w s hn h1 h31
  obtain ⟨-, -, -, hrefused, -⟩ := sbfInitFollowsItsRule n 0x3FF0000000000000 w s
  exact ⟨rateOk_one, hrefused h1 h31 rateOk_one hn (.inl (sizingM_one n))⟩

/-- Settles O15: in each row the two bounds are the same integer, so the implementation's choice does not enter. -/
theorem sizingOfTheWorkedExamples : Obligations.SizingOfTheWorkedExamples := by
  unfold Obligations.SizingOfTheWorkedExamples
  decide +kernel

end Sys2Proof
end
